-- ==== Sys2Proof/Word.lean ====
section
/-! DEFINITION. The two data widths of the block: a byte of the stream or of memory, and a 16-bit register value
(spec/00_scope.md R9, R10). -/

namespace Sys2Proof

/-- A byte: 8 bits (R10). -/
abbrev Byte := BitVec 8

/-- A 16-bit value: the width of a register slot, an effective address and an arithmetic result (R9, R20, R43, R121). -/
abbrev Word := BitVec 16

end Sys2Proof
end

