-- ==== Sys2Proof/Syntax.lean ====
section
/-! DEFINITION. The instructions: one constructor for each row of spec/opcode_table.json, over the operands of
spec/30_encoding.md R60 and spec/10_state.md R21, and the decoded record the block hands to the printer. -/

namespace Sys2Proof

/-- The width flag `w` of an instruction: 0 is `byte`, 1 is `word` (R14, R63). -/
inductive Width where
  | byte
  | word
deriving DecidableEq, Repr

/-- The bytes an operand of this width takes in memory or in the stream: `1 + w` (R50). -/
def Width.bytes : Width → Nat
  | .byte => 1
  | .word => 2

/-- The eight register slots, in slot order 0 to 7 (R15, R20). -/
inductive Slot where
  | ax
  | cx
  | dx
  | bx
  | sp
  | bp
  | si
  | di
deriving DecidableEq, Repr

/-- The byte offset of a register operand: `low` is offset 0 and `high` is offset 8 (R21). -/
inductive Half where
  | low
  | high
deriving DecidableEq, Repr

/-- A register operand `Reg(slot, off, width)` (R21). Which triples are legal is `RegOp.wf`. -/
structure RegOp where
  slot : Slot
  off : Half
  width : Width
deriving DecidableEq, Repr

/-- `Imm(size, value)`: an unsigned value tagged with its size (R60, R76). -/
inductive Imm where
  | imm8 (v : Byte)
  | imm16 (v : Word)
deriving DecidableEq, Repr

/-- The base-register combinations, in `rm` order 0 to 7 (R42). -/
inductive EaBase where
  | bxSi
  | bxDi
  | bpSi
  | bpDi
  | si
  | di
  | bp
  | bx
deriving DecidableEq, Repr

/-- An effective address `EA(mode, rm, disp)`, one constructor for each legal shape (R60, R68 to R71). The mode stays in
the constructor, so a zero displacement of mode 1 or 2 is never confused with mode 0 (R72). -/
inductive Ea where
  /-- `EA(0, rm, none)` (R68). -/
  | base (b : EaBase)
  /-- `EA(0, 6, Imm(16, a))`: a direct address (R69). -/
  | direct (a : Word)
  /-- `EA(1, rm, Imm(8, d))` (R70). -/
  | disp8 (b : EaBase) (d : Byte)
  /-- `EA(2, rm, Imm(16, d))` (R71). -/
  | disp16 (b : EaBase) (d : Word)
deriving DecidableEq, Repr

/-- What the addressing-mode resolver returns: a register or an effective address (R66). -/
inductive RmOp where
  | reg (r : RegOp)
  | mem (m : Ea)
deriving DecidableEq, Repr

/-- The arithmetic operations (R121). -/
inductive ArithOp where
  | add
  | sub
  | cmp
deriving DecidableEq, Repr

/-- The 20 jump and loop tags (R84, R153 to R172). -/
inductive JumpOp where
  | jo
  | jno
  | jb
  | jnb
  | je
  | jnz
  | jbe
  | ja
  | js
  | jns
  | jp
  | jnp
  | jl
  | jnl
  | jle
  | jg
  | loopnz
  | loopz
  | loop
  | jcxz
deriving DecidableEq, Repr

/-- One constructor for each row of spec/opcode_table.json. The operands are the destination and the source the row's
family assigns (R78 to R84), and `w` is the width flag. -/
inductive Instr where
  /-- MOV_RM_R (R104). -/
  | movRmR (w : Width) (dst : RmOp) (src : RegOp)
  /-- MOV_R_RM (R105). -/
  | movRRm (w : Width) (dst : RegOp) (src : RmOp)
  /-- ADD_RM_R (R125). -/
  | addRmR (w : Width) (dst : RmOp) (src : RegOp)
  /-- ADD_R_RM (R126). -/
  | addRRm (w : Width) (dst : RegOp) (src : RmOp)
  /-- SUB_RM_R (R129). -/
  | subRmR (w : Width) (dst : RmOp) (src : RegOp)
  /-- SUB_R_RM (R130). -/
  | subRRm (w : Width) (dst : RegOp) (src : RmOp)
  /-- CMP_RM_R (R133). -/
  | cmpRmR (w : Width) (dst : RmOp) (src : RegOp)
  /-- CMP_R_RM (R134). -/
  | cmpRRm (w : Width) (dst : RegOp) (src : RmOp)
  /-- ADD_RM_IMM, `reg = 000` (R127). -/
  | addRmImm (w : Width) (dst : RmOp) (imm : Imm)
  /-- ADD_RM_IMM_R1, `reg = 001` (R127). -/
  | addRmImmR1 (w : Width) (dst : RmOp) (imm : Imm)
  /-- ADD_RM_IMM_R2, `reg = 010` (R127). -/
  | addRmImmR2 (w : Width) (dst : RmOp) (imm : Imm)
  /-- ADD_RM_IMM_R3, `reg = 011` (R127). -/
  | addRmImmR3 (w : Width) (dst : RmOp) (imm : Imm)
  /-- ADD_RM_IMM_R4, `reg = 100` (R127). -/
  | addRmImmR4 (w : Width) (dst : RmOp) (imm : Imm)
  /-- SUB_RM_IMM, `reg = 101` (R131). -/
  | subRmImm (w : Width) (dst : RmOp) (imm : Imm)
  /-- ADD_RM_IMM_R6, `reg = 110` (R127). -/
  | addRmImmR6 (w : Width) (dst : RmOp) (imm : Imm)
  /-- CMP_RM_IMM, `reg = 111` (R135). -/
  | cmpRmImm (w : Width) (dst : RmOp) (imm : Imm)
  /-- MOV_RM_IMM (R106). -/
  | movRmImm (w : Width) (dst : RmOp) (imm : Imm)
  /-- MOV_R_IMM (R107). -/
  | movRImm (w : Width) (dst : RegOp) (imm : Imm)
  /-- MOV_ACC_MEM (R108). -/
  | movAccMem (w : Width) (addr : Word)
  /-- MOV_MEM_ACC (R109). -/
  | movMemAcc (w : Width) (addr : Word)
  /-- ADD_ACC_IMM (R128). -/
  | addAccImm (w : Width) (imm : Imm)
  /-- SUB_ACC_IMM (R132). -/
  | subAccImm (w : Width) (imm : Imm)
  /-- CMP_ACC_IMM (R136). -/
  | cmpAccImm (w : Width) (imm : Imm)
  /-- JO (R153). -/
  | jo (rel : Byte)
  /-- JNO (R154). -/
  | jno (rel : Byte)
  /-- JB (R155). -/
  | jb (rel : Byte)
  /-- JNB (R156). -/
  | jnb (rel : Byte)
  /-- JE (R157). -/
  | je (rel : Byte)
  /-- JNZ (R158). -/
  | jnz (rel : Byte)
  /-- JBE (R159). -/
  | jbe (rel : Byte)
  /-- JA (R160). -/
  | ja (rel : Byte)
  /-- JS (R161). -/
  | js (rel : Byte)
  /-- JNS (R162). -/
  | jns (rel : Byte)
  /-- JP (R163). -/
  | jp (rel : Byte)
  /-- JNP (R164). -/
  | jnp (rel : Byte)
  /-- JL (R165). -/
  | jl (rel : Byte)
  /-- JNL (R166). -/
  | jnl (rel : Byte)
  /-- JLE (R167). -/
  | jle (rel : Byte)
  /-- JG (R168). -/
  | jg (rel : Byte)
  /-- LOOPNZ (R169). -/
  | loopnz (rel : Byte)
  /-- LOOPZ (R170). -/
  | loopz (rel : Byte)
  /-- LOOP (R171). -/
  | loop (rel : Byte)
  /-- JCXZ (R172). -/
  | jcxz (rel : Byte)
deriving DecidableEq, Repr

/-! The decoded record of R60. -/

/-- An operand slot of the decoded record: exactly one of five tags (R60). -/
inductive Operand where
  | reg (r : RegOp)
  | acc (w : Width)
  | imm (i : Imm)
  | ea (m : Ea)
  | rel (v : Byte)
deriving DecidableEq, Repr

/-- The operation tag `I.op` (R60). -/
inductive OpTag where
  | mov
  | arith (op : ArithOp)
  | jump (op : JumpOp)
deriving DecidableEq, Repr

/-- The row names of spec/opcode_table.json: `I.form` (R60). -/
inductive Form where
  | MOV_RM_R
  | MOV_R_RM
  | ADD_RM_R
  | ADD_R_RM
  | SUB_RM_R
  | SUB_R_RM
  | CMP_RM_R
  | CMP_R_RM
  | ADD_RM_IMM
  | ADD_RM_IMM_R1
  | ADD_RM_IMM_R2
  | ADD_RM_IMM_R3
  | ADD_RM_IMM_R4
  | SUB_RM_IMM
  | ADD_RM_IMM_R6
  | CMP_RM_IMM
  | MOV_RM_IMM
  | MOV_R_IMM
  | MOV_ACC_MEM
  | MOV_MEM_ACC
  | ADD_ACC_IMM
  | SUB_ACC_IMM
  | CMP_ACC_IMM
  | jump (op : JumpOp)
deriving DecidableEq, Repr

/-- The decoded record `I` (R60): transient inside a step (R34), and what the block emits to the printer (R8). -/
structure Record where
  op : OpTag
  dst : Operand
  src : Option Operand
  form : Form
  w : Width
  start : Nat
  len : Nat
deriving DecidableEq, Repr

end Sys2Proof
end

