-- ==== Sys2Proof/WellFormed.lean ====
section
/-! DEFINITION. Which terms of Instr the decoder can produce: the legal register triples (R21), the effective-address
shapes (R68 to R71), operand widths that follow `w` (R65, R100) and immediate sizes (R73, R75). -/

namespace Sys2Proof

/-- Slots 0 to 3 have byte halves (R21). -/
def Slot.hasHalves : Slot → Bool
  | .ax | .cx | .dx | .bx => true
  | .sp | .bp | .si | .di => false

/-- The three legal kinds of register operand (R21). -/
def RegOp.wf (r : RegOp) : Bool :=
  match r.width with
  | .word => r.off == .low
  | .byte => r.slot.hasHalves

/-- A register operand of an instruction of width `w` is legal and has that width (R65, R100). -/
def RegOp.wfAt (w : Width) (r : RegOp) : Bool :=
  r.wf && r.width == w

/-- `rm = 6` is not a mode-0 base: that encoding is the direct address (R42, R69). -/
def Ea.wf : Ea → Bool
  | .base b => b != .bp
  | .direct _ => true
  | .disp8 _ _ => true
  | .disp16 _ _ => true

/-- A register or memory operand of an instruction of width `w`. -/
def RmOp.wfAt (w : Width) : RmOp → Bool
  | .reg r => r.wfAt w
  | .mem m => m.wf

/-- The immediate of the RI, MRI and AI formats is sized by `w` (R73). -/
def Imm.sizedBy (w : Width) : Imm → Bool
  | .imm8 _ => w == .byte
  | .imm16 _ => w == .word

/-- The immediate of the GRP1 format: two bytes only when `s = 0` and `w = 1`, else one byte (R75). -/
def Imm.grp1SizedBy (w : Width) : Imm → Bool
  | .imm8 _ => true
  | .imm16 _ => w == .word

/-- The instructions the encoding admits. -/
def Instr.wellFormed : Instr → Bool
  | .movRmR w d r | .addRmR w d r | .subRmR w d r | .cmpRmR w d r => d.wfAt w && r.wfAt w
  | .movRRm w d e | .addRRm w d e | .subRRm w d e | .cmpRRm w d e => d.wfAt w && e.wfAt w
  | .addRmImm w d i | .addRmImmR1 w d i | .addRmImmR2 w d i | .addRmImmR3 w d i | .addRmImmR4 w d i
  | .subRmImm w d i | .addRmImmR6 w d i | .cmpRmImm w d i => d.wfAt w && i.grp1SizedBy w
  | .movRmImm w d i => d.wfAt w && i.sizedBy w
  | .movRImm w d i => d.wfAt w && i.sizedBy w
  | .movAccMem _ _ | .movMemAcc _ _ => true
  | .addAccImm w i | .subAccImm w i | .cmpAccImm w i => i.sizedBy w
  | .jo _ | .jno _ | .jb _ | .jnb _ | .je _ | .jnz _ | .jbe _ | .ja _ | .js _ | .jns _ | .jp _ | .jnp _
  | .jl _ | .jnl _ | .jle _ | .jg _ | .loopnz _ | .loopz _ | .loop _ | .jcxz _ => true

end Sys2Proof
end

