-- ==== Sys2Proof/Decode.lean ====
section
/-! DEFINITION. The decoder, total on any bytes and rejecting by name, the encoder, the length of an instruction, and
the decoded record (spec/30_encoding.md R60 to R91). -/

namespace Sys2Proof

/-! ### Fields -/

/-- The slot a 3-bit number names (R20). -/
def Slot.ofCode (r : BitVec 3) : Slot :=
  match r.toNat with
  | 0 => .ax
  | 1 => .cx
  | 2 => .dx
  | 3 => .bx
  | 4 => .sp
  | 5 => .bp
  | 6 => .si
  | _ => .di

/-- The number of a slot (R20). -/
def Slot.code : Slot → BitVec 3
  | .ax => 0
  | .cx => 1
  | .dx => 2
  | .bx => 3
  | .sp => 4
  | .bp => 5
  | .si => 6
  | .di => 7

/-- The base-register combination an `rm` field names (R42). -/
def EaBase.ofCode (rm : BitVec 3) : EaBase :=
  match rm.toNat with
  | 0 => .bxSi
  | 1 => .bxDi
  | 2 => .bpSi
  | 3 => .bpDi
  | 4 => .si
  | 5 => .di
  | 6 => .bp
  | _ => .bx

/-- The `rm` field of a base-register combination (R42). -/
def EaBase.code : EaBase → BitVec 3
  | .bxSi => 0
  | .bxDi => 1
  | .bpSi => 2
  | .bpDi => 3
  | .si => 4
  | .di => 5
  | .bp => 6
  | .bx => 7

/-- The width a `w` bit names (R14). -/
def Width.ofBit (b : Bool) : Width :=
  if b then .word else .byte

/-- The `w` bit of a width (R14). -/
def Width.bit : Width → BitVec 1
  | .byte => 0
  | .word => 1

/-- The mode byte `mod reg rm` (R64). -/
def modeByte (mod : BitVec 2) (reg rm : BitVec 3) : Byte :=
  mod ++ reg ++ rm

/-- `mod = m[7:6]` (R64). -/
def modField (m : Byte) : BitVec 2 :=
  m.extractLsb' 6 2

/-- `reg = m[5:3]` (R64). -/
def regField (m : Byte) : BitVec 3 :=
  m.extractLsb' 3 3

/-- `rm = m[2:0]` (R64). -/
def rmField (m : Byte) : BitVec 3 :=
  m.extractLsb' 0 3

/-- `RegSel(r, w)` (R65). -/
def regSel (r : BitVec 3) : Width → RegOp
  | .word => ⟨Slot.ofCode r, .low, .word⟩
  | .byte => if r < 4 then ⟨Slot.ofCode r, .low, .byte⟩ else ⟨Slot.ofCode (r - 4), .high, .byte⟩

/-- The selector of a register operand: the inverse of `RegSel` (R65). -/
def RegOp.code (r : RegOp) : BitVec 3 :=
  match r.off with
  | .low => r.slot.code
  | .high => r.slot.code + 4

/-! ### Stream access and the addressing-mode resolver -/

/-- `Fetch8` on the bytes from the cursor on; `none` is a truncated stream (R61). -/
def fetch8 : List Byte → Option (Byte × List Byte)
  | [] => none
  | b :: rest => some (b, rest)

/-- `Fetch16`, low byte first (R61, R74). -/
def fetch16 : List Byte → Option (Word × List Byte)
  | lo :: hi :: rest => some (hi ++ lo, rest)
  | _ => none

/-- `Resolve(mod, rm, w)` (R66 to R72). -/
def resolve (mod : BitVec 2) (rm : BitVec 3) (w : Width) (bs : List Byte) : Option (RmOp × List Byte) :=
  match mod.toNat with
  | 0 =>
    if rm = 6 then (fetch16 bs).map fun p => (.mem (.direct p.1), p.2)
    else some (.mem (.base (EaBase.ofCode rm)), bs)
  | 1 => (fetch8 bs).map fun p => (.mem (.disp8 (EaBase.ofCode rm) p.1), p.2)
  | 2 => (fetch16 bs).map fun p => (.mem (.disp16 (EaBase.ofCode rm) p.1), p.2)
  | _ => some (.reg (regSel rm w), bs)

/-- The immediate of the RI, MRI and AI formats, sized by `w` (R73). -/
def fetchImm : Width → List Byte → Option (Imm × List Byte)
  | .byte, bs => (fetch8 bs).map fun p => (.imm8 p.1, p.2)
  | .word, bs => (fetch16 bs).map fun p => (.imm16 p.1, p.2)

/-- The immediate of the GRP1 format: two bytes when `s = 0` and `w = 1`, else one (R75). -/
def fetchGrp1Imm (s : Bool) (w : Width) (bs : List Byte) : Option (Imm × List Byte) :=
  fetchImm (if s then .byte else w) bs

/-! ### Opcode families -/

/-- The operations of the RM family (R78). -/
inductive RmFamily where
  | mov
  | arith (op : ArithOp)
deriving DecidableEq, Repr

/-- What an opcode byte says: its family and the fields it holds (R63, R78 to R84). -/
inductive Family where
  | j (op : JumpOp)
  | am (toMemory : Bool) (w : Width)
  | ai (op : ArithOp) (w : Width)
  | mri (w : Width)
  | ri (w : Width) (r : BitVec 3)
  | grp1 (s : Bool) (w : Width)
  | rm (op : RmFamily) (d : Bool) (w : Width)
deriving DecidableEq, Repr

/-- The opcode byte of a jump or loop form (R84, R153 to R172). -/
def JumpOp.code : JumpOp → Byte
  | .jo => 0x70
  | .jno => 0x71
  | .jb => 0x72
  | .jnb => 0x73
  | .je => 0x74
  | .jnz => 0x75
  | .jbe => 0x76
  | .ja => 0x77
  | .js => 0x78
  | .jns => 0x79
  | .jp => 0x7A
  | .jnp => 0x7B
  | .jl => 0x7C
  | .jnl => 0x7D
  | .jle => 0x7E
  | .jg => 0x7F
  | .loopnz => 0xE0
  | .loopz => 0xE1
  | .loop => 0xE2
  | .jcxz => 0xE3

/-- J family: 20 fixed opcode bytes (R84, R153 to R172). -/
def jFamily (b : Byte) : Option Family :=
  match b.toNat with
  | 0x70 => some (.j .jo)
  | 0x71 => some (.j .jno)
  | 0x72 => some (.j .jb)
  | 0x73 => some (.j .jnb)
  | 0x74 => some (.j .je)
  | 0x75 => some (.j .jnz)
  | 0x76 => some (.j .jbe)
  | 0x77 => some (.j .ja)
  | 0x78 => some (.j .js)
  | 0x79 => some (.j .jns)
  | 0x7A => some (.j .jp)
  | 0x7B => some (.j .jnp)
  | 0x7C => some (.j .jl)
  | 0x7D => some (.j .jnl)
  | 0x7E => some (.j .jle)
  | 0x7F => some (.j .jg)
  | 0xE0 => some (.j .loopnz)
  | 0xE1 => some (.j .loopz)
  | 0xE2 => some (.j .loop)
  | 0xE3 => some (.j .jcxz)
  | _ => none

/-- AM family: `101000tw` (R82). -/
def amFamily (b : Byte) : Option Family :=
  if b &&& 0xFC = 0xA0 then some (.am (b.getLsbD 1) (.ofBit (b.getLsbD 0))) else none

/-- AI family: `0000010w`, `0010110w` and `0011110w` (R83). -/
def aiFamily (b : Byte) : Option Family :=
  if b &&& 0xFE = 0x04 then some (.ai .add (.ofBit (b.getLsbD 0)))
  else if b &&& 0xFE = 0x2C then some (.ai .sub (.ofBit (b.getLsbD 0)))
  else if b &&& 0xFE = 0x3C then some (.ai .cmp (.ofBit (b.getLsbD 0)))
  else none

/-- MRI family: `1100011w` (R81). -/
def mriFamily (b : Byte) : Option Family :=
  if b &&& 0xFE = 0xC6 then some (.mri (.ofBit (b.getLsbD 0))) else none

/-- RI family: `1011wrrr` (R80). -/
def riFamily (b : Byte) : Option Family :=
  if b &&& 0xF0 = 0xB0 then some (.ri (.ofBit (b.getLsbD 3)) (b.extractLsb' 0 3)) else none

/-- GRP1 family: `100000sw` (R79). -/
def grp1Family (b : Byte) : Option Family :=
  if b &&& 0xFC = 0x80 then some (.grp1 (b.getLsbD 1) (.ofBit (b.getLsbD 0))) else none

/-- RM family: `oooooodw` (R63, R78). -/
def rmFamily (b : Byte) : Option Family :=
  if b &&& 0xFC = 0x88 then some (.rm .mov (b.getLsbD 1) (.ofBit (b.getLsbD 0)))
  else if b &&& 0xFC = 0x00 then some (.rm (.arith .add) (b.getLsbD 1) (.ofBit (b.getLsbD 0)))
  else if b &&& 0xFC = 0x28 then some (.rm (.arith .sub) (b.getLsbD 1) (.ofBit (b.getLsbD 0)))
  else if b &&& 0xFC = 0x38 then some (.rm (.arith .cmp) (b.getLsbD 1) (.ofBit (b.getLsbD 0)))
  else none

/-- The family of an opcode byte, tried in the order J, AM, AI, MRI, RI, GRP1, RM (R85); `none` is an unknown opcode
(R86). -/
def familyOf (b : Byte) : Option Family :=
  jFamily b <|> amFamily b <|> aiFamily b <|> mriFamily b <|> riFamily b <|> grp1Family b <|> rmFamily b

/-! ### Operand assignment -/

/-- The jump or loop instruction of a tag (R84). -/
def JumpOp.instr : JumpOp → Byte → Instr
  | .jo => .jo
  | .jno => .jno
  | .jb => .jb
  | .jnb => .jnb
  | .je => .je
  | .jnz => .jnz
  | .jbe => .jbe
  | .ja => .ja
  | .js => .js
  | .jns => .jns
  | .jp => .jp
  | .jnp => .jnp
  | .jl => .jl
  | .jnl => .jnl
  | .jle => .jle
  | .jg => .jg
  | .loopnz => .loopnz
  | .loopz => .loopz
  | .loop => .loop
  | .jcxz => .jcxz

/-- The AM form of a direction bit (R82). -/
def amInstr (toMemory : Bool) (w : Width) (a : Word) : Instr :=
  if toMemory then .movMemAcc w a else .movAccMem w a

/-- The AI form of an operation (R83). -/
def aiInstr : ArithOp → Width → Imm → Instr
  | .add, w, i => .addAccImm w i
  | .sub, w, i => .subAccImm w i
  | .cmp, w, i => .cmpAccImm w i

/-- The GRP1 form the `reg` field selects: 101 is SUB, 111 is CMP, every other value is an ADD (R79). -/
def grp1Instr (reg : BitVec 3) (w : Width) (d : RmOp) (i : Imm) : Instr :=
  match reg.toNat with
  | 0 => .addRmImm w d i
  | 1 => .addRmImmR1 w d i
  | 2 => .addRmImmR2 w d i
  | 3 => .addRmImmR3 w d i
  | 4 => .addRmImmR4 w d i
  | 5 => .subRmImm w d i
  | 6 => .addRmImmR6 w d i
  | _ => .cmpRmImm w d i

/-- The RM form: the `reg` operand is the destination when `d = 1`, the source when `d = 0` (R78). -/
def rmInstr : RmFamily → Bool → Width → RegOp → RmOp → Instr
  | .mov, true, w, r, e => .movRRm w r e
  | .mov, false, w, r, e => .movRmR w e r
  | .arith .add, true, w, r, e => .addRRm w r e
  | .arith .add, false, w, r, e => .addRmR w e r
  | .arith .sub, true, w, r, e => .subRRm w r e
  | .arith .sub, false, w, r, e => .subRmR w e r
  | .arith .cmp, true, w, r, e => .cmpRRm w r e
  | .arith .cmp, false, w, r, e => .cmpRmR w e r

/-- The operand parser of a family, on the bytes after the opcode byte; `none` is a truncated stream (R62, R78 to
R84). -/
def parseOperands (f : Family) (bs : List Byte) : Option (Instr × List Byte) :=
  match f with
  | .j op => (fetch8 bs).map fun p => (op.instr p.1, p.2)
  | .am t w => (fetch16 bs).map fun p => (amInstr t w p.1, p.2)
  | .ai op w => (fetchImm w bs).map fun p => (aiInstr op w p.1, p.2)
  | .ri w r => (fetchImm w bs).map fun p => (.movRImm w (regSel r w) p.1, p.2)
  | .mri w =>
    (fetch8 bs).bind fun m => (resolve (modField m.1) (rmField m.1) w m.2).bind fun e =>
      (fetchImm w e.2).map fun i => (.movRmImm w e.1 i.1, i.2)
  | .grp1 s w =>
    (fetch8 bs).bind fun m => (resolve (modField m.1) (rmField m.1) w m.2).bind fun e =>
      (fetchGrp1Imm s w e.2).map fun i => (grp1Instr (regField m.1) w e.1 i.1, i.2)
  | .rm op d w =>
    (fetch8 bs).bind fun m => (resolve (modField m.1) (rmField m.1) w m.2).map fun e =>
      (rmInstr op d w (regSel (regField m.1) w) e.1, e.2)

/-- Why bytes decode to no instruction. -/
inductive DecodeError where
  /-- There is no byte at the cursor. The run loop never decodes there (R203, R205). -/
  | noOpcode
  /-- The opcode byte matches no family (R86, R181). -/
  | unknownOpcode (b : Byte)
  /-- The stream ends inside the instruction that opcode byte `b` began (R61, R182). -/
  | truncated (b : Byte)
deriving DecidableEq, Repr

/-- `Decode()`: one instruction and the bytes after it, or the reason there is none (R60, R86, R87). -/
def decode : List Byte → Except DecodeError (Instr × List Byte)
  | [] => .error .noOpcode
  | b :: rest =>
    match familyOf b with
    | none => .error (.unknownOpcode b)
    | some f =>
      match parseOperands f rest with
      | none => .error (.truncated b)
      | some p => .ok p

/-! ### Encoder -/

/-- The `mod` field of a register or memory operand (R67 to R71). -/
def RmOp.mod : RmOp → BitVec 2
  | .reg _ => 3
  | .mem (.base _) => 0
  | .mem (.direct _) => 0
  | .mem (.disp8 _ _) => 1
  | .mem (.disp16 _ _) => 2

/-- The `rm` field of a register or memory operand (R65, R67 to R71). -/
def RmOp.rm : RmOp → BitVec 3
  | .reg r => r.code
  | .mem (.base b) => b.code
  | .mem (.direct _) => 6
  | .mem (.disp8 b _) => b.code
  | .mem (.disp16 b _) => b.code

/-- A 16-bit stream field, low byte first (R74). -/
def wordBytes (v : Word) : List Byte :=
  [v.extractLsb' 0 8, v.extractLsb' 8 8]

/-- The displacement bytes of a register or memory operand (R67 to R71). -/
def RmOp.dispBytes : RmOp → List Byte
  | .reg _ => []
  | .mem (.base _) => []
  | .mem (.direct a) => wordBytes a
  | .mem (.disp8 _ d) => [d]
  | .mem (.disp16 _ d) => wordBytes d

/-- The bytes of an immediate (R73 to R75). -/
def Imm.bytes : Imm → List Byte
  | .imm8 v => [v]
  | .imm16 v => wordBytes v

/-- The mode byte and displacement of an instruction with `reg` field `reg` (R62, R64). -/
def encodeRm (reg : BitVec 3) (e : RmOp) : List Byte :=
  modeByte e.mod reg e.rm :: e.dispBytes

/-- The `s` bit of a GRP1 opcode: 1 for a one-byte immediate of a 16-bit operation. For `w = 0` both values decode alike
and 0 is written (R75, R90). -/
def grp1S : Width → Imm → BitVec 1
  | .word, .imm8 _ => 1
  | .word, .imm16 _ => 0
  | .byte, _ => 0

/-- The opcode byte of an instruction (R78 to R84). For the J and AI forms it is the byte every stream holds there. -/
def Instr.opcode : Instr → Byte
  | .movRmR w _ _ => (0b1000100#7) ++ w.bit
  | .movRRm w _ _ => (0b1000101#7) ++ w.bit
  | .addRmR w _ _ => (0b0000000#7) ++ w.bit
  | .addRRm w _ _ => (0b0000001#7) ++ w.bit
  | .subRmR w _ _ => (0b0010100#7) ++ w.bit
  | .subRRm w _ _ => (0b0010101#7) ++ w.bit
  | .cmpRmR w _ _ => (0b0011100#7) ++ w.bit
  | .cmpRRm w _ _ => (0b0011101#7) ++ w.bit
  | .addRmImm w _ i | .addRmImmR1 w _ i | .addRmImmR2 w _ i | .addRmImmR3 w _ i | .addRmImmR4 w _ i
  | .subRmImm w _ i | .addRmImmR6 w _ i | .cmpRmImm w _ i => (0b100000#6) ++ grp1S w i ++ w.bit
  | .movRmImm w _ _ => (0b1100011#7) ++ w.bit
  | .movRImm w r _ => (0b1011#4) ++ w.bit ++ r.code
  | .movAccMem w _ => (0b1010000#7) ++ w.bit
  | .movMemAcc w _ => (0b1010001#7) ++ w.bit
  | .addAccImm w _ => (0b0000010#7) ++ w.bit
  | .subAccImm w _ => (0b0010110#7) ++ w.bit
  | .cmpAccImm w _ => (0b0011110#7) ++ w.bit
  | .jo _ => JumpOp.jo.code
  | .jno _ => JumpOp.jno.code
  | .jb _ => JumpOp.jb.code
  | .jnb _ => JumpOp.jnb.code
  | .je _ => JumpOp.je.code
  | .jnz _ => JumpOp.jnz.code
  | .jbe _ => JumpOp.jbe.code
  | .ja _ => JumpOp.ja.code
  | .js _ => JumpOp.js.code
  | .jns _ => JumpOp.jns.code
  | .jp _ => JumpOp.jp.code
  | .jnp _ => JumpOp.jnp.code
  | .jl _ => JumpOp.jl.code
  | .jnl _ => JumpOp.jnl.code
  | .jle _ => JumpOp.jle.code
  | .jg _ => JumpOp.jg.code
  | .loopnz _ => JumpOp.loopnz.code
  | .loopz _ => JumpOp.loopz.code
  | .loop _ => JumpOp.loop.code
  | .jcxz _ => JumpOp.jcxz.code

/-- The bytes after the opcode byte (R62, R78 to R84). The ignored `reg` field of MRI is written 000 (R81). -/
def Instr.operandBytes : Instr → List Byte
  | .movRmR _ e r | .addRmR _ e r | .subRmR _ e r | .cmpRmR _ e r => encodeRm r.code e
  | .movRRm _ r e | .addRRm _ r e | .subRRm _ r e | .cmpRRm _ r e => encodeRm r.code e
  | .addRmImm _ e i => encodeRm 0 e ++ i.bytes
  | .addRmImmR1 _ e i => encodeRm 1 e ++ i.bytes
  | .addRmImmR2 _ e i => encodeRm 2 e ++ i.bytes
  | .addRmImmR3 _ e i => encodeRm 3 e ++ i.bytes
  | .addRmImmR4 _ e i => encodeRm 4 e ++ i.bytes
  | .subRmImm _ e i => encodeRm 5 e ++ i.bytes
  | .addRmImmR6 _ e i => encodeRm 6 e ++ i.bytes
  | .cmpRmImm _ e i => encodeRm 7 e ++ i.bytes
  | .movRmImm _ e i => encodeRm 0 e ++ i.bytes
  | .movRImm _ _ i => i.bytes
  | .movAccMem _ a | .movMemAcc _ a => wordBytes a
  | .addAccImm _ i | .subAccImm _ i | .cmpAccImm _ i => i.bytes
  | .jo v | .jno v | .jb v | .jnb v | .je v | .jnz v | .jbe v | .ja v | .js v | .jns v | .jp v | .jnp v
  | .jl v | .jnl v | .jle v | .jg v | .loopnz v | .loopz v | .loop v | .jcxz v => [v]

/-- The bytes of an instruction, first byte first (R62, R92). -/
def encode (i : Instr) : List Byte :=
  i.opcode :: i.operandBytes

/-! ### Length and the decoded record -/

/-- The displacement bytes a register or memory operand consumes (R67 to R71, R88). -/
def RmOp.dispLength : RmOp → Nat
  | .reg _ => 0
  | .mem (.base _) => 0
  | .mem (.direct _) => 2
  | .mem (.disp8 _ _) => 1
  | .mem (.disp16 _ _) => 2

/-- The bytes an immediate consumes (R73, R75). -/
def Imm.length : Imm → Nat
  | .imm8 _ => 1
  | .imm16 _ => 2

/-- `I.len`: the bytes the instruction consumes (R60, R62, R88). -/
def Instr.length : Instr → Nat
  | .movRmR _ e _ | .addRmR _ e _ | .subRmR _ e _ | .cmpRmR _ e _ => 2 + e.dispLength
  | .movRRm _ _ e | .addRRm _ _ e | .subRRm _ _ e | .cmpRRm _ _ e => 2 + e.dispLength
  | .addRmImm _ e i | .addRmImmR1 _ e i | .addRmImmR2 _ e i | .addRmImmR3 _ e i | .addRmImmR4 _ e i
  | .subRmImm _ e i | .addRmImmR6 _ e i | .cmpRmImm _ e i => 2 + e.dispLength + i.length
  | .movRmImm _ e i => 2 + e.dispLength + i.length
  | .movRImm _ _ i => 1 + i.length
  | .movAccMem _ _ | .movMemAcc _ _ => 3
  | .addAccImm _ i | .subAccImm _ i | .cmpAccImm _ i => 1 + i.length
  | .jo _ | .jno _ | .jb _ | .jnb _ | .je _ | .jnz _ | .jbe _ | .ja _ | .js _ | .jns _ | .jp _ | .jnp _
  | .jl _ | .jnl _ | .jle _ | .jg _ | .loopnz _ | .loopz _ | .loop _ | .jcxz _ => 2

/-- A register or memory operand as an operand slot of the record (R60). -/
def RmOp.operand : RmOp → Operand
  | .reg r => .reg r
  | .mem m => .ea m

/-- A jump record: the displacement in slot 0, no source, width flag 0 (R60, R84). -/
def jumpRecord (op : JumpOp) (v : Byte) (start : Nat) : Record :=
  ⟨.jump op, .rel v, none, .jump op, .byte, start, 2⟩

/-- The decoded record of an instruction whose first byte is at `start` (R60, R78 to R84). -/
def Instr.record (i : Instr) (start : Nat) : Record :=
  match i with
  | .movRmR w d s => ⟨.mov, d.operand, some (.reg s), .MOV_RM_R, w, start, i.length⟩
  | .movRRm w d s => ⟨.mov, .reg d, some s.operand, .MOV_R_RM, w, start, i.length⟩
  | .addRmR w d s => ⟨.arith .add, d.operand, some (.reg s), .ADD_RM_R, w, start, i.length⟩
  | .addRRm w d s => ⟨.arith .add, .reg d, some s.operand, .ADD_R_RM, w, start, i.length⟩
  | .subRmR w d s => ⟨.arith .sub, d.operand, some (.reg s), .SUB_RM_R, w, start, i.length⟩
  | .subRRm w d s => ⟨.arith .sub, .reg d, some s.operand, .SUB_R_RM, w, start, i.length⟩
  | .cmpRmR w d s => ⟨.arith .cmp, d.operand, some (.reg s), .CMP_RM_R, w, start, i.length⟩
  | .cmpRRm w d s => ⟨.arith .cmp, .reg d, some s.operand, .CMP_R_RM, w, start, i.length⟩
  | .addRmImm w d v => ⟨.arith .add, d.operand, some (.imm v), .ADD_RM_IMM, w, start, i.length⟩
  | .addRmImmR1 w d v => ⟨.arith .add, d.operand, some (.imm v), .ADD_RM_IMM_R1, w, start, i.length⟩
  | .addRmImmR2 w d v => ⟨.arith .add, d.operand, some (.imm v), .ADD_RM_IMM_R2, w, start, i.length⟩
  | .addRmImmR3 w d v => ⟨.arith .add, d.operand, some (.imm v), .ADD_RM_IMM_R3, w, start, i.length⟩
  | .addRmImmR4 w d v => ⟨.arith .add, d.operand, some (.imm v), .ADD_RM_IMM_R4, w, start, i.length⟩
  | .subRmImm w d v => ⟨.arith .sub, d.operand, some (.imm v), .SUB_RM_IMM, w, start, i.length⟩
  | .addRmImmR6 w d v => ⟨.arith .add, d.operand, some (.imm v), .ADD_RM_IMM_R6, w, start, i.length⟩
  | .cmpRmImm w d v => ⟨.arith .cmp, d.operand, some (.imm v), .CMP_RM_IMM, w, start, i.length⟩
  | .movRmImm w d v => ⟨.mov, d.operand, some (.imm v), .MOV_RM_IMM, w, start, i.length⟩
  | .movRImm w d v => ⟨.mov, .reg d, some (.imm v), .MOV_R_IMM, w, start, i.length⟩
  | .movAccMem w a => ⟨.mov, .acc w, some (.ea (.direct a)), .MOV_ACC_MEM, w, start, i.length⟩
  | .movMemAcc w a => ⟨.mov, .ea (.direct a), some (.acc w), .MOV_MEM_ACC, w, start, i.length⟩
  | .addAccImm w v => ⟨.arith .add, .acc w, some (.imm v), .ADD_ACC_IMM, w, start, i.length⟩
  | .subAccImm w v => ⟨.arith .sub, .acc w, some (.imm v), .SUB_ACC_IMM, w, start, i.length⟩
  | .cmpAccImm w v => ⟨.arith .cmp, .acc w, some (.imm v), .CMP_ACC_IMM, w, start, i.length⟩
  | .jo v => jumpRecord .jo v start
  | .jno v => jumpRecord .jno v start
  | .jb v => jumpRecord .jb v start
  | .jnb v => jumpRecord .jnb v start
  | .je v => jumpRecord .je v start
  | .jnz v => jumpRecord .jnz v start
  | .jbe v => jumpRecord .jbe v start
  | .ja v => jumpRecord .ja v start
  | .js v => jumpRecord .js v start
  | .jns v => jumpRecord .jns v start
  | .jp v => jumpRecord .jp v start
  | .jnp v => jumpRecord .jnp v start
  | .jl v => jumpRecord .jl v start
  | .jnl v => jumpRecord .jnl v start
  | .jle v => jumpRecord .jle v start
  | .jg v => jumpRecord .jg v start
  | .loopnz v => jumpRecord .loopnz v start
  | .loopz v => jumpRecord .loopz v start
  | .loop v => jumpRecord .loop v start
  | .jcxz v => jumpRecord .jcxz v start

/-! ### Words as the opcode table numbers them -/

/-- The longest instruction, in bytes (R62). -/
def maxLength : Nat := 6

/-- The stream bytes of a table word: the table writes a two-byte row as `byte0 * 256 + byte1` (spec/INDEX.md), so the
first byte is the most significant; operand bytes the table gives no bits are zero (log entry 3). -/
def tableBytes (nbits w : Nat) : List Byte :=
  let n := (nbits + 7) / 8
  (List.range n).map (fun k => BitVec.ofNat 8 (w >>> (8 * (n - 1 - k)))) ++ List.replicate (maxLength - n) 0

/-- The instruction the decoder reads from a table word. -/
def decodeTableWord (nbits w : Nat) : Option Instr :=
  match decode (tableBytes nbits w) with
  | .ok p => some p.1
  | .error _ => none

end Sys2Proof
end

