-- ==== Sys2Proof/Config.lean ====
section
/-! DEFINITION. The implementation parameters of the block (spec/00_scope.md R9), each with the spec's default.
A configuration is plain data, held unchanged in State, so that every statement covers every parameter value.
The spec settles or parametrises every point its source leaves open, so there is no free value here. -/

namespace Sys2Proof

/-- How an 8-bit stream value is widened: `P_DISP8_EXT` (R45) and `P_IMM8_EXT` (R76). -/
inductive Extension where
  | zero
  | sign
deriving DecidableEq, Repr

/-- `P_NARROW_FLAGS`: the bits that the flags of an 8-bit operation are computed from (R122). -/
inductive NarrowFlags where
  | wide16
  | native8
deriving DecidableEq, Repr

/-- `P_ACC_DEST`: the meaning of an accumulator destination of add, sub and cmp (R123). -/
inductive AccDest where
  | asRegister
  | refuse
deriving DecidableEq, Repr

/-- `P_JCC_MODE`: the execution of the jump and loop forms other than jnz (R152). -/
inductive JccMode where
  | noop
  | refuse
deriving DecidableEq, Repr

/-- `P_PENALTY_KEY`: what makes an odd address pay the misalignment penalty (R221). -/
inductive PenaltyKey where
  | dispSize
  | operandWidth
deriving DecidableEq, Repr

/-- `P_COST_STATE`: the state in which the estimator resolves addresses (R214). -/
inductive CostState where
  | post
  | pre
deriving DecidableEq, Repr

/-- `BASE_MOV`: one base cost for each operand pairing of a move (R217). -/
structure MovBaseCosts where
  regReg : Nat
  regMem : Nat
  memReg : Nat
  regImm : Nat
  memImm : Nat
  accMem : Nat
  memAcc : Nat
deriving DecidableEq, Repr

/-- `BASE_ADD`: one base cost for each operand pairing of an add (R218). -/
structure AddBaseCosts where
  regReg : Nat
  regMem : Nat
  memReg : Nat
  regImm : Nat
  memImm : Nat
  accImm : Nat
deriving DecidableEq, Repr

/-- An 8-entry effective-address cost table, one entry for each `rm` value in order 0 to 7 (R219). -/
structure EaCosts where
  bxSi : Nat
  bxDi : Nat
  bpSi : Nat
  bpDi : Nat
  si : Nat
  di : Nat
  bp : Nat
  bx : Nat
deriving DecidableEq, Repr

/-- The parameters of one block (R9). The register and address widths are in the types. -/
structure Config where
  /-- `MEM_SIZE`, in bytes (R41). -/
  memSize : Nat
  /-- `P_DISP8_EXT` (R45). -/
  disp8Ext : Extension
  /-- `P_IMM8_EXT` (R76). -/
  imm8Ext : Extension
  /-- `P_NARROW_FLAGS` (R122). -/
  narrowFlags : NarrowFlags
  /-- `P_ACC_DEST` (R123). -/
  accDest : AccDest
  /-- `P_JCC_MODE` (R152). -/
  jccMode : JccMode
  /-- `P_PENALTY_KEY` (R221). -/
  penaltyKey : PenaltyKey
  /-- `P_COST_STATE` (R214). -/
  costState : CostState
  /-- `ESTIMATOR_ON` (R33, R203). -/
  estimatorOn : Bool
  /-- `BASE_MOV` (R217). -/
  baseMov : MovBaseCosts
  /-- `BASE_ADD` (R218). -/
  baseAdd : AddBaseCosts
  /-- `EA_NODISP` (R219). Its `bp` entry is never read (R219, U22). -/
  eaNoDisp : EaCosts
  /-- `EA_DISP` (R219). -/
  eaDisp : EaCosts
  /-- `EA_DIRECT` (R219). -/
  eaDirect : Nat
deriving DecidableEq, Repr

/-- The spec's default of every parameter (R9, R217, R218, R219). -/
def Config.default : Config where
  memSize := 2 ^ 20
  disp8Ext := .zero
  imm8Ext := .zero
  narrowFlags := .wide16
  accDest := .asRegister
  jccMode := .noop
  penaltyKey := .dispSize
  costState := .post
  estimatorOn := true
  baseMov := ⟨2, 8, 9, 4, 10, 10, 10⟩
  baseAdd := ⟨3, 9, 16, 4, 17, 4⟩
  eaNoDisp := ⟨7, 8, 8, 7, 5, 5, 0, 5⟩
  eaDisp := ⟨11, 12, 12, 11, 9, 9, 9, 9⟩
  eaDirect := 6

/-- `PENALTY`: 4 cycles for each word transfer, a constant of the source (R9, R221). -/
def Config.penalty : Nat := 4

end Sys2Proof
end

