-- ==== Sys2Proof/Machine/State.lean ====
section
/-! DEFINITION. The state of the block (spec/10_state.md R20 to R35) as plain data, the reasons a step can stop, and the
state after reset. -/

namespace Sys2Proof.Machine

/-- The register file: eight 16-bit slots (R20). -/
structure RegFile where
  ax : Word
  cx : Word
  dx : Word
  bx : Word
  sp : Word
  bp : Word
  si : Word
  di : Word
deriving DecidableEq, Repr

/-- The data memory `M`, as the cells that differ from what an unlisted address reads as, in rising address order
(R31). Addresses run from 0 to `MEM_SIZE - 1` (R41). -/
abbrev Memory := List Host.Cell

/-- The terminal conditions of a run, raised by decode or by the execute phase (R180). Each is the spec's own fault, so
stopping there is safe. -/
inductive Fault where
  /-- Raised by decode: the opcode byte `b` matches no family (R181). Safe. -/
  | unknownOpcode (b : Byte)
  /-- Raised by decode: the stream ends inside the instruction that opcode byte `b` began at `start` (R182). Safe. -/
  | truncated (b : Byte) (start : Nat)
  /-- Raised by a memory access of `n` bytes at `a` that passes `MEM_SIZE` (R183). Safe. -/
  | memOutOfBounds (a n : Nat)
  /-- Raised by a taken jnz whose target `t` lies outside `0..L` (R184). Safe. -/
  | jumpOutOfStream (t : Int)
  /-- Raised by a form that a parameter value refuses, with its opcode byte (R185). Never under the defaults. Safe. -/
  | unmodelled (b : Byte)
deriving DecidableEq, Repr

/-- Why no step is taken. -/
inductive Refusal where
  /-- An arm of `exec` that has no meaning yet. No arm answers it in this model. Safe. -/
  | notModelled (mnemonic : String)
  /-- Raised by `step` when the halt status is `Ended`: no further step is taken (R32, R205). Safe. -/
  | runEnded
  /-- Raised by `step` when the cursor is past the end of the stream, which no run reaches (R205). Safe. -/
  | cursorPastStream
deriving DecidableEq, Repr

/-- The halt status (R32). A fault record holds the fault with its information, and the `pc` of the faulting
instruction's first byte (R180). -/
inductive Status where
  | running
  | ended
  | faulted (f : Fault) (pc : Nat)
deriving DecidableEq, Repr

/-- The estimator's result: `NotComputed` or a triple (R215). -/
inductive Cost where
  | notComputed
  | computed (base ea penalty : Nat)
deriving DecidableEq, Repr

/-- The record a step hands to the printer: the decoded record and, when the estimator runs, the cost with the
cumulative count (R8, R203). -/
structure Emission where
  instr : Record
  timing : Option (Cost × Nat)
deriving DecidableEq, Repr

/-- The whole state. `cfg` and `stream` are fixed for a run and no step changes them (R9, R30). `out` is the model's own
field: the output port of R8, holding what the last step emitted (log entry 5). -/
structure State where
  /-- The parameters of the block (R9). -/
  cfg : Config
  /-- `x[0..7]` (R20). -/
  regs : RegFile
  /-- `FLAGS`, with ZF at bit 6 and SF at bit 7 (R25). -/
  flags : Byte
  /-- `pc`, the cursor: a stream index (R28). -/
  pc : Nat
  /-- `S[0..L-1]`, the instruction stream (R30). -/
  stream : List Byte
  /-- `M` (R31). -/
  mem : Memory
  /-- The halt status (R32). -/
  status : Status
  /-- `CYC`, the cumulative cycle count (R33). -/
  cyc : Nat
  /-- What the last step handed to the printer (R8). -/
  out : Option Emission
deriving DecidableEq, Repr

/-- The state at creation with the default parameters, the all-zero launch image and no stream supplied: `L = 0`, so the
run has ended at once (R35, R201, R207). A program comes in as a stream (`launch`, log entry 2). -/
def State.reset : State where
  cfg := Config.default
  regs := ⟨0, 0, 0, 0, 0, 0, 0, 0⟩
  flags := 0
  pc := 0
  stream := []
  mem := []
  status := .ended
  cyc := 0
  out := none

end Sys2Proof.Machine
end

