-- ==== Sys2Proof/Machine/Ops.lean ====
section
/-! DEFINITION. The operations on registers (spec/10_state.md R22, R23), data memory (spec/20_memory.md R46 to R48), the
stream and the halt status (spec/60_exceptions.md R180, R186) that every meaning is written with. -/

namespace Sys2Proof.Machine

/-! ### Register file -/

/-- `x[i]` (R12). -/
def RegFile.get (r : RegFile) : Slot → Word
  | .ax => r.ax
  | .cx => r.cx
  | .dx => r.dx
  | .bx => r.bx
  | .sp => r.sp
  | .bp => r.bp
  | .si => r.si
  | .di => r.di

/-- `x[i] <- v` (R12). -/
def RegFile.set (r : RegFile) (i : Slot) (v : Word) : RegFile :=
  match i with
  | .ax => { r with ax := v }
  | .cx => { r with cx := v }
  | .dx => { r with dx := v }
  | .bx => { r with bx := v }
  | .sp => { r with sp := v }
  | .bp => { r with bp := v }
  | .si => { r with si := v }
  | .di => { r with di := v }

/-- The low byte of a 16-bit value. -/
def loByte (v : Word) : Byte :=
  v.extractLsb' 0 8

/-- The high byte of a 16-bit value. -/
def hiByte (v : Word) : Byte :=
  v.extractLsb' 8 8

/-- The register a slot number and the accumulator's width name: `al` or `ax` (R91). -/
def accReg : Width → RegOp
  | .byte => ⟨.ax, .low, .byte⟩
  | .word => ⟨.ax, .low, .word⟩

/-- `ReadReg`; a byte half is zero-extended (R22, R120). -/
def State.readReg (s : State) (r : RegOp) : Word :=
  match r.width, r.off with
  | .word, _ => s.regs.get r.slot
  | .byte, .low => (loByte (s.regs.get r.slot)).setWidth 16
  | .byte, .high => (hiByte (s.regs.get r.slot)).setWidth 16

/-- The new value of a slot when `v` is written to the part of it a register operand names (R23). -/
def RegOp.merge (r : RegOp) (old v : Word) : Word :=
  match r.width, r.off with
  | .word, _ => v
  | .byte, .low => hiByte old ++ loByte v
  | .byte, .high => loByte v ++ loByte old

/-- `WriteReg`: a half write keeps the other half of its slot (R23). -/
def State.writeReg (s : State) (r : RegOp) (v : Word) : State :=
  { s with regs := s.regs.set r.slot (RegOp.merge r (s.regs.get r.slot) v) }

/-! ### Data memory -/

/-- What an address that is not listed reads as: the reset contents of `M` (R58). -/
def Memory.unlisted : Byte := 0

/-- `M[a]` (R12). -/
def Memory.read : Memory → Nat → Byte
  | [], _ => Memory.unlisted
  | (k, v) :: rest, a => if k = a then v else Memory.read rest a

/-- `M[a] <- v`, keeping addresses rising and listing no byte that an unlisted address reads as. -/
def Memory.write : Memory → Nat → Byte → Memory
  | [], a, v => if v = Memory.unlisted then [] else [(a, v)]
  | (k, u) :: rest, a, v =>
    if k < a then (k, u) :: Memory.write rest a v
    else if k = a then (if v = Memory.unlisted then rest else (a, v) :: rest)
    else (if v = Memory.unlisted then (k, u) :: rest else (a, v) :: (k, u) :: rest)

/-- The canonical form: addresses strictly rising, and no entry that an unlisted address already reads as. -/
abbrev Memory.wf (m : Memory) : Prop :=
  m.Pairwise (fun c d => c.1 < d.1) ∧ ∀ c ∈ m, c.2 ≠ Memory.unlisted

/-- The bound check of a `w`-wide access at `a`: no index at or above `MEM_SIZE` (R46, R47, R183). -/
def State.inBounds (s : State) (a : Nat) (w : Width) : Bool :=
  a + w.bytes ≤ s.cfg.memSize

/-- `MemRead(a, n)`: little-endian, the second byte at `a + 1` without wrapping (R46, R48). A byte is zero-extended
(R120). -/
def State.memRead (s : State) (a : Nat) (w : Width) : Except Fault Word :=
  if s.inBounds a w then
    .ok (match w with
      | .byte => (Memory.read s.mem a).setWidth 16
      | .word => Memory.read s.mem (a + 1) ++ Memory.read s.mem a)
  else .error (.memOutOfBounds a w.bytes)

/-- The memory after the low `n` bytes of `v` are stored at `a`, low byte first (R47, R48). -/
def Memory.store (m : Memory) (a : Nat) (w : Width) (v : Word) : Memory :=
  match w with
  | .byte => Memory.write m a (loByte v)
  | .word => Memory.write (Memory.write m a (loByte v)) (a + 1) (hiByte v)

/-- The state with another data memory. -/
def State.setMem (s : State) (m : Memory) : State :=
  { s with mem := m }

/-- `MemWrite(a, n, v)`: the bound is checked before any byte is written (R47, R186). -/
def State.memWrite (s : State) (a : Nat) (w : Width) (v : Word) : Except Fault State :=
  if s.inBounds a w then .ok (s.setMem (Memory.store s.mem a w v))
  else .error (.memOutOfBounds a w.bytes)

/-! ### Stream, faults and the end of the run -/

/-- The bytes of the stream from the cursor on (R28, R61). -/
def State.fetchBytes (s : State) : List Byte :=
  s.stream.drop s.pc

/-- The fault code (R180). -/
def Fault.code : Fault → Nat
  | .unknownOpcode _ => 1
  | .truncated _ _ => 2
  | .memOutOfBounds _ _ => 3
  | .jumpOutOfStream _ => 4
  | .unmodelled _ => 5

/-- Taking a fault: nothing is written but the halt status, whose record holds the fault and the index of the faulting
instruction's first byte; nothing is emitted (R180, R186, R188, R203). -/
def State.takeFault (s : State) (f : Fault) : State :=
  { s with status := .faulted f s.pc, out := none }

/-- The loop test at the end of the stream: the run ends normally and nothing is emitted (R203, R205). -/
def State.endRun (s : State) : State :=
  { s with status := .ended, out := none }

/-- What `step` does when the bytes at the cursor do not decode: the decode faults of R181 and R182. -/
def State.decodeFailure (s : State) : DecodeError → Host.Outcome State Fault Refusal
  | .noOpcode => .refused .cursorPastStream
  | .unknownOpcode b => .next (s.takeFault (.unknownOpcode b))
  | .truncated b => .next (s.takeFault (.truncated b s.pc))

/-- `pc <- t` (R12). -/
def State.setPc (s : State) (t : Nat) : State :=
  { s with pc := t }

/-- The execute phase of instruction `i`, whose effect is `body`: `pc` already holds the index of the byte after the
instruction (R28, R29), and a raised fault ends the phase with nothing written (R12, R186). -/
def State.execute (s : State) (i : Instr) (body : State → Except Fault State) : Host.Outcome State Fault Refusal :=
  match body (s.setPc (s.pc + i.length)) with
  | .ok t => .next t
  | .error f => .fault f

end Sys2Proof.Machine
end

