-- ==== Sys2Proof/Machine/Flags.lean ====
section
/-! DEFINITION. The flags byte (spec/10_state.md R25 to R27) and its update (spec/41_arith.md R122). -/

namespace Sys2Proof.Machine

/-- `ZF`, at bit 6 of FLAGS (R25). -/
def State.zf (s : State) : Bool :=
  s.flags.getLsbD 6

/-- `SF`, at bit 7 of FLAGS (R25). -/
def State.sf (s : State) : Bool :=
  s.flags.getLsbD 7

/-- The reserved bits 0 to 5 of FLAGS (R27). -/
def State.reservedFlags (s : State) : BitVec 6 :=
  s.flags.extractLsb' 0 6

/-- FLAGS with both populated bits written and the reserved bits kept (R26, R27, R122). -/
def putFlags (old : Byte) (z n : Bool) : Byte :=
  BitVec.ofBool n ++ BitVec.ofBool z ++ old.extractLsb' 0 6

/-- The new `ZF` of `SetFlags(r, N)` (R122). -/
def zeroOf (c : NarrowFlags) (w : Width) (r : Word) : Bool :=
  match w, c with
  | .byte, .native8 => loByte r == 0
  | .byte, .wide16 => r == 0
  | .word, _ => r == 0

/-- The new `SF` of `SetFlags(r, N)` (R122). -/
def signOf (c : NarrowFlags) (w : Width) (r : Word) : Bool :=
  match w, c with
  | .byte, .native8 => r.getLsbD 7
  | .byte, .wide16 => r.getLsbD 15
  | .word, _ => r.getLsbD 15

/-- `SetFlags(r, N)` (R122). -/
def State.setFlags (s : State) (w : Width) (r : Word) : State :=
  { s with flags := putFlags s.flags (zeroOf s.cfg.narrowFlags w r) (signOf s.cfg.narrowFlags w r) }

end Sys2Proof.Machine
end

