-- ==== Sys2Proof/Machine/Launch.lean ====
section
/-! DEFINITION. Reset with a stream and a launch image from the host (spec/10_state.md R35,
spec/70_reset_and_hazards.md R200 to R202, R207). -/

namespace Sys2Proof.Machine

/-- The initial values the host may supply: registers, ZF, SF and bytes of memory (R201). -/
structure LaunchImage where
  regs : RegFile
  zf : Bool
  sf : Bool
  cells : List Host.Cell
deriving DecidableEq, Repr

/-- The default launch image: all zero (R201). -/
def LaunchImage.zero : LaunchImage :=
  ⟨⟨0, 0, 0, 0, 0, 0, 0, 0⟩, false, false, []⟩

/-- The initial memory of a list of cells: a later cell of an address replaces an earlier one, and a cell outside
`M[0..MEM_SIZE-1]` is no byte of the memory (R31, R58). -/
def initialMemory (memSize : Nat) (cells : List Host.Cell) : Memory :=
  (cells.filter fun c => c.1 < memSize).foldl (fun m c => Memory.write m c.1 c.2) []

/-- The status of a new run: `Ended` at once for an empty stream (R35, R207). -/
def initialStatus (stream : List Byte) : Status :=
  if stream.isEmpty then .ended else .running

/-- The state at creation, for parameters, a launch image and a stream from the host (R35, R200 to R202). -/
def launch (cfg : Config) (image : LaunchImage) (stream : List Byte) : State where
  cfg := cfg
  regs := image.regs
  flags := putFlags 0 image.zf image.sf
  pc := 0
  stream := stream
  mem := initialMemory cfg.memSize image.cells
  status := initialStatus stream
  cyc := 0
  out := none

end Sys2Proof.Machine
end

