-- ==== Sys2Proof/Machine/Operands.lean ====
section
/-! DEFINITION. Effective addresses (spec/20_memory.md R42 to R45), immediate values (spec/30_encoding.md R76) and
operand read and write (spec/40_mov.md R100 to R102). -/

namespace Sys2Proof.Machine

/-- `Base(rm)`, summed on unbounded integers (R42, R43). -/
def baseSum (r : RegFile) : EaBase → Int
  | .bxSi => r.bx.toNat + r.si.toNat
  | .bxDi => r.bx.toNat + r.di.toNat
  | .bpSi => r.bp.toNat + r.si.toNat
  | .bpDi => r.bp.toNat + r.di.toNat
  | .si => r.si.toNat
  | .di => r.di.toNat
  | .bp => r.bp.toNat
  | .bx => r.bx.toNat

/-- `DispValue` of an 8-bit displacement (R43, R45). -/
def disp8Value (x : Extension) (d : Byte) : Int :=
  match x with
  | .zero => d.toNat
  | .sign => d.toInt

/-- `EAValue`: the sum truncated to 16 bits, no segment base; a direct address uses no register (R43, R44). -/
def State.eaValue (s : State) : Ea → Word
  | .base b => BitVec.ofInt 16 (baseSum s.regs b)
  | .direct a => a
  | .disp8 b d => BitVec.ofInt 16 (baseSum s.regs b + disp8Value s.cfg.disp8Ext d)
  | .disp16 b d => BitVec.ofInt 16 (baseSum s.regs b + d.toNat)

/-- `ImmValue` in an operation of width `w` (R76). A 16-bit immediate in a byte operation is not well formed. -/
def State.immValue (s : State) (w : Width) : Imm → Word
  | .imm16 v => v
  | .imm8 v =>
    match w with
    | .byte => v.setWidth 16
    | .word =>
      match s.cfg.imm8Ext with
      | .zero => v.setWidth 16
      | .sign => v.signExtend 16

/-- The operands that `WriteOp` applies to: no instruction has an `Imm` or `Rel` destination (R101). -/
inductive Loc where
  | reg (r : RegOp)
  | acc (w : Width)
  | ea (m : Ea)
deriving DecidableEq, Repr

/-- The operands that a source can be (R100). -/
inductive Source where
  | loc (l : Loc)
  | imm (i : Imm)
deriving DecidableEq, Repr

/-- A register or memory operand as a location. -/
def rmLoc : RmOp → Loc
  | .reg r => .reg r
  | .mem m => .ea m

/-- `ReadOp` of a location, in an instruction of width `w` (R100, R102). -/
def State.readLoc (s : State) (w : Width) : Loc → Except Fault Word
  | .reg r => .ok (s.readReg r)
  | .acc v => .ok (s.readReg (accReg v))
  | .ea m => s.memRead (s.eaValue m).toNat w

/-- `ReadOp` of a source (R100). -/
def State.readSource (s : State) (w : Width) : Source → Except Fault Word
  | .loc l => s.readLoc w l
  | .imm i => .ok (s.immValue w i)

/-- `WriteOp` (R101, R102). -/
def State.writeLoc (s : State) (w : Width) (l : Loc) (v : Word) : Except Fault State :=
  match l with
  | .reg r => .ok (s.writeReg r v)
  | .acc u => .ok (s.writeReg (accReg u) v)
  | .ea m => s.memWrite (s.eaValue m).toNat w v

end Sys2Proof.Machine
end

