-- ==== Sys2Proof/Machine/Arith.lean ====
section
/-! DEFINITION. Add, subtract and compare (spec/41_arith.md R120 to R137). -/

namespace Sys2Proof.Machine

/-- The result, formed at 16 bits whatever the width (R121). -/
def arithResult : ArithOp → Word → Word → Word
  | .add, a, b => a + b
  | .sub, a, b => a - b
  | .cmp, a, b => a - b

/-- The write-back: add and sub write the result to operand 1, cmp writes nothing (R123). -/
def State.writeResult (s : State) (op : ArithOp) (w : Width) (dst : Loc) (r : Word) : Except Fault State :=
  match op with
  | .add => s.writeLoc w dst r
  | .sub => s.writeLoc w dst r
  | .cmp => .ok s

/-- The flag update: a register or accumulator destination sets both flags, a memory destination none (R123, R124). -/
def State.resultFlags (s : State) (w : Width) (dst : Loc) (r : Word) : State :=
  match dst with
  | .reg _ => s.setFlags w r
  | .acc _ => s.setFlags w r
  | .ea _ => s

/-- `P_ACC_DEST = refuse` refuses an accumulator destination (R123, R185). -/
def State.refusesDest (s : State) : Loc → Bool
  | .reg _ => false
  | .acc _ => s.cfg.accDest == .refuse
  | .ea _ => false

/-- `Arith(I)` of an instruction with opcode byte `b0`: the refusal test, both reads, the write, the flags, in that
order (R120 to R123, R186). -/
def arith (op : ArithOp) (b0 : Byte) (w : Width) (dst : Loc) (src : Source) (s : State) : Except Fault State :=
  if s.refusesDest dst then .error (.unmodelled b0)
  else do
    let a ← s.readLoc w dst
    let b ← s.readSource w src
    let r := arithResult op a b
    let t ← s.writeResult op w dst r
    return t.resultFlags w dst r

/-- The body of an arithmetic instruction: `Arith(I)` with the instruction's own opcode byte. -/
def State.executeArith (s : State) (i : Instr) (op : ArithOp) (w : Width) (dst : Loc) (src : Source) :
    Host.Outcome State Fault Refusal :=
  s.execute i (arith op i.opcode w dst src)

/-- ADD_RM_R (R125). -/
def execAddRmR (w : Width) (dst : RmOp) (src : RegOp) (s : State) : Host.Outcome State Fault Refusal :=
  s.executeArith (.addRmR w dst src) .add w (rmLoc dst) (.loc (.reg src))

/-- ADD_R_RM (R126). -/
def execAddRRm (w : Width) (dst : RegOp) (src : RmOp) (s : State) : Host.Outcome State Fault Refusal :=
  s.executeArith (.addRRm w dst src) .add w (.reg dst) (.loc (rmLoc src))

/-- ADD_RM_IMM (R127). -/
def execAddRmImm (w : Width) (dst : RmOp) (imm : Imm) (s : State) : Host.Outcome State Fault Refusal :=
  s.executeArith (.addRmImm w dst imm) .add w (rmLoc dst) (.imm imm)

/-- ADD_RM_IMM_R1: an add (R79, R127). -/
def execAddRmImmR1 (w : Width) (dst : RmOp) (imm : Imm) (s : State) : Host.Outcome State Fault Refusal :=
  s.executeArith (.addRmImmR1 w dst imm) .add w (rmLoc dst) (.imm imm)

/-- ADD_RM_IMM_R2: an add (R79, R127). -/
def execAddRmImmR2 (w : Width) (dst : RmOp) (imm : Imm) (s : State) : Host.Outcome State Fault Refusal :=
  s.executeArith (.addRmImmR2 w dst imm) .add w (rmLoc dst) (.imm imm)

/-- ADD_RM_IMM_R3: an add (R79, R127). -/
def execAddRmImmR3 (w : Width) (dst : RmOp) (imm : Imm) (s : State) : Host.Outcome State Fault Refusal :=
  s.executeArith (.addRmImmR3 w dst imm) .add w (rmLoc dst) (.imm imm)

/-- ADD_RM_IMM_R4: an add (R79, R127). -/
def execAddRmImmR4 (w : Width) (dst : RmOp) (imm : Imm) (s : State) : Host.Outcome State Fault Refusal :=
  s.executeArith (.addRmImmR4 w dst imm) .add w (rmLoc dst) (.imm imm)

/-- ADD_RM_IMM_R6: an add (R79, R127). -/
def execAddRmImmR6 (w : Width) (dst : RmOp) (imm : Imm) (s : State) : Host.Outcome State Fault Refusal :=
  s.executeArith (.addRmImmR6 w dst imm) .add w (rmLoc dst) (.imm imm)

/-- ADD_ACC_IMM (R128). -/
def execAddAccImm (w : Width) (imm : Imm) (s : State) : Host.Outcome State Fault Refusal :=
  s.executeArith (.addAccImm w imm) .add w (.acc w) (.imm imm)

/-- SUB_RM_R (R129). -/
def execSubRmR (w : Width) (dst : RmOp) (src : RegOp) (s : State) : Host.Outcome State Fault Refusal :=
  s.executeArith (.subRmR w dst src) .sub w (rmLoc dst) (.loc (.reg src))

/-- SUB_R_RM (R130). -/
def execSubRRm (w : Width) (dst : RegOp) (src : RmOp) (s : State) : Host.Outcome State Fault Refusal :=
  s.executeArith (.subRRm w dst src) .sub w (.reg dst) (.loc (rmLoc src))

/-- SUB_RM_IMM (R131). -/
def execSubRmImm (w : Width) (dst : RmOp) (imm : Imm) (s : State) : Host.Outcome State Fault Refusal :=
  s.executeArith (.subRmImm w dst imm) .sub w (rmLoc dst) (.imm imm)

/-- SUB_ACC_IMM (R132). -/
def execSubAccImm (w : Width) (imm : Imm) (s : State) : Host.Outcome State Fault Refusal :=
  s.executeArith (.subAccImm w imm) .sub w (.acc w) (.imm imm)

/-- CMP_RM_R (R133). -/
def execCmpRmR (w : Width) (dst : RmOp) (src : RegOp) (s : State) : Host.Outcome State Fault Refusal :=
  s.executeArith (.cmpRmR w dst src) .cmp w (rmLoc dst) (.loc (.reg src))

/-- CMP_R_RM (R134). -/
def execCmpRRm (w : Width) (dst : RegOp) (src : RmOp) (s : State) : Host.Outcome State Fault Refusal :=
  s.executeArith (.cmpRRm w dst src) .cmp w (.reg dst) (.loc (rmLoc src))

/-- CMP_RM_IMM (R135). -/
def execCmpRmImm (w : Width) (dst : RmOp) (imm : Imm) (s : State) : Host.Outcome State Fault Refusal :=
  s.executeArith (.cmpRmImm w dst imm) .cmp w (rmLoc dst) (.imm imm)

/-- CMP_ACC_IMM (R136). -/
def execCmpAccImm (w : Width) (imm : Imm) (s : State) : Host.Outcome State Fault Refusal :=
  s.executeArith (.cmpAccImm w imm) .cmp w (.acc w) (.imm imm)

end Sys2Proof.Machine
end

