-- ==== Sys2Proof/Machine/Control.lean ====
section
/-! DEFINITION. The conditional jumps and loops (spec/42_control.md R150 to R172). -/

namespace Sys2Proof.Machine

/-- The jump target, on integers: `pc` is already the index of the byte after the instruction (R150). -/
def State.jumpTarget (s : State) (v : Byte) : Int :=
  s.pc + v.toInt

/-- A taken jump: a target in `0..L` becomes `pc`, any other raises JumpOutOfStream (R151, R184). -/
def State.jumpTo (s : State) (t : Int) : Except Fault State :=
  if 0 ≤ t ∧ t ≤ s.stream.length then .ok (s.setPc t.toNat) else .error (.jumpOutOfStream t)

/-- `InactiveJump(I)` of an instruction with opcode byte `b0`: nothing, or Unmodelled, by `P_JCC_MODE` (R152, R185). -/
def inactiveJump (b0 : Byte) (s : State) : Except Fault State :=
  match s.cfg.jccMode with
  | .noop => .ok s
  | .refuse => .error (.unmodelled b0)

/-- The effect of jnz: the only jump that acts, and only when ZF is clear (R158). -/
def jumpIfNotZero (v : Byte) (s : State) : Except Fault State :=
  if s.zf then .ok s else s.jumpTo (s.jumpTarget v)

/-- JO, inactive (R152, R153). -/
def execJo (rel : Byte) (s : State) : Host.Outcome State Fault Refusal :=
  s.execute (.jo rel) (inactiveJump (Instr.opcode (.jo rel)))

/-- JNO, inactive (R152, R154). -/
def execJno (rel : Byte) (s : State) : Host.Outcome State Fault Refusal :=
  s.execute (.jno rel) (inactiveJump (Instr.opcode (.jno rel)))

/-- JB, inactive (R152, R155). -/
def execJb (rel : Byte) (s : State) : Host.Outcome State Fault Refusal :=
  s.execute (.jb rel) (inactiveJump (Instr.opcode (.jb rel)))

/-- JNB, inactive (R152, R156). -/
def execJnb (rel : Byte) (s : State) : Host.Outcome State Fault Refusal :=
  s.execute (.jnb rel) (inactiveJump (Instr.opcode (.jnb rel)))

/-- JE, inactive (R152, R157). -/
def execJe (rel : Byte) (s : State) : Host.Outcome State Fault Refusal :=
  s.execute (.je rel) (inactiveJump (Instr.opcode (.je rel)))

/-- JNZ (R158). -/
def execJnz (rel : Byte) (s : State) : Host.Outcome State Fault Refusal :=
  s.execute (.jnz rel) (jumpIfNotZero rel)

/-- JBE, inactive (R152, R159). -/
def execJbe (rel : Byte) (s : State) : Host.Outcome State Fault Refusal :=
  s.execute (.jbe rel) (inactiveJump (Instr.opcode (.jbe rel)))

/-- JA, inactive (R152, R160). -/
def execJa (rel : Byte) (s : State) : Host.Outcome State Fault Refusal :=
  s.execute (.ja rel) (inactiveJump (Instr.opcode (.ja rel)))

/-- JS, inactive (R152, R161). -/
def execJs (rel : Byte) (s : State) : Host.Outcome State Fault Refusal :=
  s.execute (.js rel) (inactiveJump (Instr.opcode (.js rel)))

/-- JNS, inactive (R152, R162). -/
def execJns (rel : Byte) (s : State) : Host.Outcome State Fault Refusal :=
  s.execute (.jns rel) (inactiveJump (Instr.opcode (.jns rel)))

/-- JP, inactive (R152, R163). -/
def execJp (rel : Byte) (s : State) : Host.Outcome State Fault Refusal :=
  s.execute (.jp rel) (inactiveJump (Instr.opcode (.jp rel)))

/-- JNP, inactive (R152, R164). -/
def execJnp (rel : Byte) (s : State) : Host.Outcome State Fault Refusal :=
  s.execute (.jnp rel) (inactiveJump (Instr.opcode (.jnp rel)))

/-- JL, inactive (R152, R165). -/
def execJl (rel : Byte) (s : State) : Host.Outcome State Fault Refusal :=
  s.execute (.jl rel) (inactiveJump (Instr.opcode (.jl rel)))

/-- JNL, inactive (R152, R166). -/
def execJnl (rel : Byte) (s : State) : Host.Outcome State Fault Refusal :=
  s.execute (.jnl rel) (inactiveJump (Instr.opcode (.jnl rel)))

/-- JLE, inactive (R152, R167). -/
def execJle (rel : Byte) (s : State) : Host.Outcome State Fault Refusal :=
  s.execute (.jle rel) (inactiveJump (Instr.opcode (.jle rel)))

/-- JG, inactive (R152, R168). -/
def execJg (rel : Byte) (s : State) : Host.Outcome State Fault Refusal :=
  s.execute (.jg rel) (inactiveJump (Instr.opcode (.jg rel)))

/-- LOOPNZ, inactive (R152, R169). -/
def execLoopnz (rel : Byte) (s : State) : Host.Outcome State Fault Refusal :=
  s.execute (.loopnz rel) (inactiveJump (Instr.opcode (.loopnz rel)))

/-- LOOPZ, inactive (R152, R170). -/
def execLoopz (rel : Byte) (s : State) : Host.Outcome State Fault Refusal :=
  s.execute (.loopz rel) (inactiveJump (Instr.opcode (.loopz rel)))

/-- LOOP, inactive (R152, R171). -/
def execLoop (rel : Byte) (s : State) : Host.Outcome State Fault Refusal :=
  s.execute (.loop rel) (inactiveJump (Instr.opcode (.loop rel)))

/-- JCXZ, inactive (R152, R172). -/
def execJcxz (rel : Byte) (s : State) : Host.Outcome State Fault Refusal :=
  s.execute (.jcxz rel) (inactiveJump (Instr.opcode (.jcxz rel)))

end Sys2Proof.Machine
end

