-- ==== Sys2Proof/Machine/Mov.lean ====
section
/-! DEFINITION. The move instructions (spec/40_mov.md R103 to R110). -/

namespace Sys2Proof.Machine

/-- `Move(I)`: the source is read, then the destination is written; no flag changes (R103). -/
def move (w : Width) (dst : Loc) (src : Source) (s : State) : Except Fault State := do
  let v ← s.readSource w src
  s.writeLoc w dst v

/-- MOV_RM_R (R104). -/
def execMovRmR (w : Width) (dst : RmOp) (src : RegOp) (s : State) : Host.Outcome State Fault Refusal :=
  s.execute (.movRmR w dst src) (move w (rmLoc dst) (.loc (.reg src)))

/-- MOV_R_RM (R105). -/
def execMovRRm (w : Width) (dst : RegOp) (src : RmOp) (s : State) : Host.Outcome State Fault Refusal :=
  s.execute (.movRRm w dst src) (move w (.reg dst) (.loc (rmLoc src)))

/-- MOV_RM_IMM (R106). -/
def execMovRmImm (w : Width) (dst : RmOp) (imm : Imm) (s : State) : Host.Outcome State Fault Refusal :=
  s.execute (.movRmImm w dst imm) (move w (rmLoc dst) (.imm imm))

/-- MOV_R_IMM (R107). -/
def execMovRImm (w : Width) (dst : RegOp) (imm : Imm) (s : State) : Host.Outcome State Fault Refusal :=
  s.execute (.movRImm w dst imm) (move w (.reg dst) (.imm imm))

/-- MOV_ACC_MEM (R108). -/
def execMovAccMem (w : Width) (addr : Word) (s : State) : Host.Outcome State Fault Refusal :=
  s.execute (.movAccMem w addr) (move w (.acc w) (.loc (.ea (.direct addr))))

/-- MOV_MEM_ACC (R109). -/
def execMovMemAcc (w : Width) (addr : Word) (s : State) : Host.Outcome State Fault Refusal :=
  s.execute (.movMemAcc w addr) (move w (.ea (.direct addr)) (.loc (.acc w)))

end Sys2Proof.Machine
end

