-- ==== Sys2Proof/Machine/Dispatch.lean ====
section
/-! DEFINITION. The execute phase: one arm per constructor of Instr, each one call of that instruction's meaning
(spec/40_mov.md, spec/41_arith.md, spec/42_control.md). -/

namespace Sys2Proof.Machine

def exec (i : Instr) (s : State) : Host.Outcome State Fault Refusal :=
  match i with
  | .movRmR w dst src => Sys2Proof.Machine.execMovRmR w dst src s
  | .movRRm w dst src => Sys2Proof.Machine.execMovRRm w dst src s
  | .addRmR w dst src => Sys2Proof.Machine.execAddRmR w dst src s
  | .addRRm w dst src => Sys2Proof.Machine.execAddRRm w dst src s
  | .subRmR w dst src => Sys2Proof.Machine.execSubRmR w dst src s
  | .subRRm w dst src => Sys2Proof.Machine.execSubRRm w dst src s
  | .cmpRmR w dst src => Sys2Proof.Machine.execCmpRmR w dst src s
  | .cmpRRm w dst src => Sys2Proof.Machine.execCmpRRm w dst src s
  | .addRmImm w dst imm => Sys2Proof.Machine.execAddRmImm w dst imm s
  | .addRmImmR1 w dst imm => Sys2Proof.Machine.execAddRmImmR1 w dst imm s
  | .addRmImmR2 w dst imm => Sys2Proof.Machine.execAddRmImmR2 w dst imm s
  | .addRmImmR3 w dst imm => Sys2Proof.Machine.execAddRmImmR3 w dst imm s
  | .addRmImmR4 w dst imm => Sys2Proof.Machine.execAddRmImmR4 w dst imm s
  | .subRmImm w dst imm => Sys2Proof.Machine.execSubRmImm w dst imm s
  | .addRmImmR6 w dst imm => Sys2Proof.Machine.execAddRmImmR6 w dst imm s
  | .cmpRmImm w dst imm => Sys2Proof.Machine.execCmpRmImm w dst imm s
  | .movRmImm w dst imm => Sys2Proof.Machine.execMovRmImm w dst imm s
  | .movRImm w dst imm => Sys2Proof.Machine.execMovRImm w dst imm s
  | .movAccMem w addr => Sys2Proof.Machine.execMovAccMem w addr s
  | .movMemAcc w addr => Sys2Proof.Machine.execMovMemAcc w addr s
  | .addAccImm w imm => Sys2Proof.Machine.execAddAccImm w imm s
  | .subAccImm w imm => Sys2Proof.Machine.execSubAccImm w imm s
  | .cmpAccImm w imm => Sys2Proof.Machine.execCmpAccImm w imm s
  | .jo rel => Sys2Proof.Machine.execJo rel s
  | .jno rel => Sys2Proof.Machine.execJno rel s
  | .jb rel => Sys2Proof.Machine.execJb rel s
  | .jnb rel => Sys2Proof.Machine.execJnb rel s
  | .je rel => Sys2Proof.Machine.execJe rel s
  | .jnz rel => Sys2Proof.Machine.execJnz rel s
  | .jbe rel => Sys2Proof.Machine.execJbe rel s
  | .ja rel => Sys2Proof.Machine.execJa rel s
  | .js rel => Sys2Proof.Machine.execJs rel s
  | .jns rel => Sys2Proof.Machine.execJns rel s
  | .jp rel => Sys2Proof.Machine.execJp rel s
  | .jnp rel => Sys2Proof.Machine.execJnp rel s
  | .jl rel => Sys2Proof.Machine.execJl rel s
  | .jnl rel => Sys2Proof.Machine.execJnl rel s
  | .jle rel => Sys2Proof.Machine.execJle rel s
  | .jg rel => Sys2Proof.Machine.execJg rel s
  | .loopnz rel => Sys2Proof.Machine.execLoopnz rel s
  | .loopz rel => Sys2Proof.Machine.execLoopz rel s
  | .loop rel => Sys2Proof.Machine.execLoop rel s
  | .jcxz rel => Sys2Proof.Machine.execJcxz rel s

end Sys2Proof.Machine
end

