-- ==== Sys2Proof/Machine/Estimator.lean ====
section
/-! DEFINITION. The cycle-cost estimator and the output record (spec/70_reset_and_hazards.md R203, R213 to R223;
spec/00_scope.md R8). It runs after the execute phase and no execution depends on it (R223). -/

namespace Sys2Proof.Machine

/-- The move base cost of a form whose other operand is a register (R216, R217). -/
def movRegBase (t : MovBaseCosts) (memory : Nat) : RmOp → Nat
  | .reg _ => t.regReg
  | .mem _ => memory

/-- The move base cost of an immediate form (R216, R217). -/
def movImmBase (t : MovBaseCosts) : RmOp → Nat
  | .reg _ => t.regImm
  | .mem _ => t.memImm

/-- The add base cost of a form whose other operand is a register (R216, R218). -/
def addRegBase (t : AddBaseCosts) (memory : Nat) : RmOp → Nat
  | .reg _ => t.regReg
  | .mem _ => memory

/-- The add base cost of an immediate form (R216, R218). -/
def addImmBase (t : AddBaseCosts) : RmOp → Nat
  | .reg _ => t.regImm
  | .mem _ => t.memImm

/-- The base cost by operand pairing; `none` is a form the estimator does not compute (R213, R216 to R218). -/
def baseCost (c : Config) : Instr → Option Nat
  | .movRmR _ d _ => some (movRegBase c.baseMov c.baseMov.memReg d)
  | .movRRm _ _ e => some (movRegBase c.baseMov c.baseMov.regMem e)
  | .movRmImm _ d _ => some (movImmBase c.baseMov d)
  | .movRImm _ _ _ => some c.baseMov.regImm
  | .movAccMem _ _ => some c.baseMov.accMem
  | .movMemAcc _ _ => some c.baseMov.memAcc
  | .addRmR _ d _ => some (addRegBase c.baseAdd c.baseAdd.memReg d)
  | .addRRm _ _ e => some (addRegBase c.baseAdd c.baseAdd.regMem e)
  | .addRmImm _ d _ => some (addImmBase c.baseAdd d)
  | .addRmImmR1 _ d _ => some (addImmBase c.baseAdd d)
  | .addRmImmR2 _ d _ => some (addImmBase c.baseAdd d)
  | .addRmImmR3 _ d _ => some (addImmBase c.baseAdd d)
  | .addRmImmR4 _ d _ => some (addImmBase c.baseAdd d)
  | .addRmImmR6 _ d _ => some (addImmBase c.baseAdd d)
  | .addAccImm _ _ => some c.baseAdd.accImm
  | .subRmR _ _ _ | .subRRm _ _ _ | .subRmImm _ _ _ | .subAccImm _ _ => none
  | .cmpRmR _ _ _ | .cmpRRm _ _ _ | .cmpRmImm _ _ _ | .cmpAccImm _ _ => none
  | .jo _ | .jno _ | .jb _ | .jnb _ | .je _ | .jnz _ | .jbe _ | .ja _ | .js _ | .jns _ | .jp _ | .jnp _
  | .jl _ | .jnl _ | .jle _ | .jg _ | .loopnz _ | .loopz _ | .loop _ | .jcxz _ => none

/-- The memory operand in a register or memory operand, if it is one. -/
def rmMemory : RmOp → Option Ea
  | .reg _ => none
  | .mem m => some m

/-- The memory operand of an instruction; no instruction has two (R187, R221). -/
def memoryOperand : Instr → Option Ea
  | .movRmR _ e _ | .addRmR _ e _ | .subRmR _ e _ | .cmpRmR _ e _ => rmMemory e
  | .movRRm _ _ e | .addRRm _ _ e | .subRRm _ _ e | .cmpRRm _ _ e => rmMemory e
  | .addRmImm _ e _ | .addRmImmR1 _ e _ | .addRmImmR2 _ e _ | .addRmImmR3 _ e _ | .addRmImmR4 _ e _
  | .subRmImm _ e _ | .addRmImmR6 _ e _ | .cmpRmImm _ e _ => rmMemory e
  | .movRmImm _ e _ => rmMemory e
  | .movRImm _ _ _ => none
  | .movAccMem _ a | .movMemAcc _ a => some (.direct a)
  | .addAccImm _ _ | .subAccImm _ _ | .cmpAccImm _ _ => none
  | .jo _ | .jno _ | .jb _ | .jnb _ | .je _ | .jnz _ | .jbe _ | .ja _ | .js _ | .jns _ | .jp _ | .jnp _
  | .jl _ | .jnl _ | .jle _ | .jg _ | .loopnz _ | .loopz _ | .loop _ | .jcxz _ => none

/-- An entry of an 8-entry effective-address cost table (R219). -/
def eaEntry (t : EaCosts) : EaBase → Nat
  | .bxSi => t.bxSi
  | .bxDi => t.bxDi
  | .bpSi => t.bpSi
  | .bpDi => t.bpDi
  | .si => t.si
  | .di => t.di
  | .bp => t.bp
  | .bx => t.bx

/-- The cost of an effective address: the table is chosen by the mode, never by the displacement's value (R219,
R220). -/
def eaModeCost (c : Config) : Ea → Nat
  | .base b => eaEntry c.eaNoDisp b
  | .direct _ => c.eaDirect
  | .disp8 b _ => eaEntry c.eaDisp b
  | .disp16 b _ => eaEntry c.eaDisp b

/-- The EA cost of an instruction: none for the accumulator move forms or without a memory operand (R219). -/
def eaCost (c : Config) (i : Instr) : Nat :=
  match i with
  | .movAccMem _ _ => 0
  | .movMemAcc _ _ => 0
  | _ => ((memoryOperand i).map (eaModeCost c)).getD 0

/-- The displacement is 16 bits wide: mode 2, a direct address, or an AM-form address (R221). -/
def wideDisp : Ea → Bool
  | .base _ => false
  | .direct _ => true
  | .disp8 _ _ => false
  | .disp16 _ _ => true

/-- What keys the misalignment penalty (R221). -/
def penaltyKeyed (c : Config) (i : Instr) (m : Ea) : Bool :=
  match c.penaltyKey with
  | .dispSize => wideDisp m
  | .operandWidth => (i.record 0).w == .word

/-- The word transfers: 2 for an add with a memory destination, else 1 (R221). -/
def transfers (i : Instr) : Nat :=
  match (i.record 0).op, (i.record 0).dst with
  | .arith .add, .ea _ => 2
  | _, _ => 1

/-- The misalignment penalty, with addresses resolved in state `s` (R214, R221). -/
def penaltyCost (s : State) (i : Instr) : Nat :=
  match memoryOperand i with
  | none => 0
  | some m =>
    if penaltyKeyed s.cfg i m && (s.eaValue m).getLsbD 0 then Config.penalty * transfers i else 0

/-- `Cost(I)`, with addresses resolved in state `s` (R213, R215). -/
def cost (s : State) (i : Instr) : Cost :=
  match baseCost s.cfg i with
  | none => .notComputed
  | some b => .computed b (eaCost s.cfg i) (penaltyCost s i)

/-- `total`; `NotComputed` adds nothing to `CYC` (R215, R222). -/
def Cost.total : Cost → Nat
  | .notComputed => 0
  | .computed b e p => b + e + p

/-- The state the estimator resolves addresses in: `pre` at the start of the execute phase, or `post` after it (R214). -/
def costState (pre post : State) : State :=
  match pre.cfg.costState with
  | .pre => pre
  | .post => post

/-- The end of a step whose instruction `i` started in `pre` and completed in `post`: the estimator runs if it is on,
`CYC` grows by the total, and one record is emitted (R203, R214, R222, R8). -/
def account (i : Instr) (pre post : State) : State :=
  if pre.cfg.estimatorOn then
    let c := cost (costState pre post) i
    { post with
      cyc := post.cyc + c.total
      out := some ⟨i.record pre.pc, some (c, post.cyc + c.total)⟩ }
  else { post with out := some ⟨i.record pre.pc, none⟩ }

end Sys2Proof.Machine
end

