-- ==== Sys2Proof/Machine/RunLoop.lean ====
section
/-! DEFINITION. The body of the run loop (spec/70_reset_and_hazards.md R203): the loop test, decode, execute, estimate and
emit. -/

namespace Sys2Proof.Machine

/-- What the step does with the outcome of the execute phase of `i`: it accounts for a completed instruction, and takes
a raised fault (R180, R203). -/
def State.conclude (s : State) (i : Instr) : Host.Outcome State Fault Refusal → Host.Outcome State Fault Refusal
  | .next t => .next (account i s t)
  | .fault f => .next (s.takeFault f)
  | .refused r => .refused r

/-- `Step()`: decode one instruction at the cursor, execute it, account for it (R6, R203). -/
def State.runOne (s : State) : Host.Outcome State Fault Refusal :=
  match decode s.fetchBytes with
  | .error e => s.decodeFailure e
  | .ok p => s.conclude p.1 (exec p.1 s)

/-- One turn of the loop while the status is `Running`: the end-of-stream test comes first (R203, R205). -/
def State.turn (s : State) : Host.Outcome State Fault Refusal :=
  if s.pc = s.stream.length then .next s.endRun else s.runOne

/-- The stream with bytes placed at the cursor: zeros before them where the stream is too short, and the rest of the
stream after them (R7). -/
def State.streamWith (s : State) (bs : List Byte) : List Byte :=
  (s.stream ++ List.replicate s.pc 0).take s.pc ++ bs ++ s.stream.drop (s.pc + bs.length)

end Sys2Proof.Machine
end

