-- ==== Sys2Proof/Machine/Step.lean ====
section
/-! DEFINITION. The step of the machine (spec/00_scope.md R6, spec/70_reset_and_hazards.md R203). -/

namespace Sys2Proof.Machine

/-- One step. A halted state takes none (R32): a faulted one stops with its fault, an ended one with `runEnded`. -/
def step (s : State) : Host.Outcome State Fault Refusal :=
  match s.status with
  | .faulted f _ => .fault f
  | .ended => .refused .runEnded
  | .running => s.turn

/-- The state with an instruction's bytes at the cursor and the run not halted, so that the next step runs that
instruction (R7, log entry 2). -/
def State.withFetchWord (s : State) (nbits w : Nat) : State :=
  { s with stream := s.streamWith (tableBytes nbits w), status := .running }

end Sys2Proof.Machine
end

