-- ==== Sys2Proof/Safety.lean ====
section
/-! DEFINITION. The terms that claims about the block are stated in: the invariant, what "written", "stored" and
"unchanged" mean on a state, and the values of operands and results as numbers, written from the spec's formulas. -/

namespace Sys2Proof.Machine

/-! ### The invariant -/

/-- What holds of every state of a run, at creation and after every step. -/
structure State.Inv (s : State) : Prop where
  /-- Memory has its canonical form. -/
  memoryForm : Memory.wf s.mem
  /-- No byte outside `M[0..MEM_SIZE-1]` is listed (R31). -/
  memoryInside : ∀ c ∈ s.mem, c.1 < s.cfg.memSize
  /-- `pc > L` never holds (R205). -/
  cursorInStream : s.pc ≤ s.stream.length
  /-- The reserved flag bits hold 0 (R27). -/
  reservedZero : s.reservedFlags = 0
  /-- `Ended` says that the cursor reached `L` (R206). -/
  endedAtEnd : s.status = .ended → s.pc = s.stream.length
  /-- The halt record's `pc` is the cursor: the first byte of the faulting instruction (R186). -/
  faultAtCursor : ∀ f p, s.status = .faulted f p → p = s.pc
  /-- With the estimator off `CYC` stays 0 (R33). -/
  countOff : s.cfg.estimatorOn = false → s.cyc = 0
  /-- The cumulative count in the emitted record is `CYC` (R203). -/
  emittedCount : ∀ e c n, s.out = some e → e.timing = some (c, n) → n = s.cyc

/-! ### Runs -/

/-- The instructions of a list, executed one after another. -/
def execAll : List Instr → State → Host.Outcome State Fault Refusal
  | [], s => .next s
  | i :: rest, s =>
    match exec i s with
    | .next t => execAll rest t
    | .fault f => .fault f
    | .refused r => .refused r

/-- A run of `k` steps is safe when it neither stops nor records a fault. -/
def SafeRun (k : Nat) (s : State) : Prop :=
  ∃ t, Host.Core.run Sys2Proof.core k s = .next t ∧ ∀ f p, t.status ≠ .faulted f p

/-! ### Unchanged, written, stored -/

/-- What no instruction's execute phase touches: the parameters, the stream, the halt status, `CYC` and the output
port. -/
def SameBookkeeping (s t : State) : Prop :=
  t.cfg = s.cfg ∧ t.stream = s.stream ∧ t.status = s.status ∧ t.cyc = s.cyc ∧ t.out = s.out

/-- Every byte of memory reads as before. -/
def SameMemory (s t : State) : Prop :=
  ∀ a, Memory.read t.mem a = Memory.read s.mem a

/-- The new value of a slot when the number `v` is written to the part that `d` names (R23). -/
def mergedValue (d : RegOp) (old v : Nat) : Nat :=
  match d.width, d.off with
  | .word, _ => v % 65536
  | .byte, .low => old / 256 * 256 + v % 256
  | .byte, .high => v % 256 * 256 + old % 256

/-- The number `v` is in the register that `d` names, the other half of its slot and every other slot are as before. -/
def RegisterWritten (d : RegOp) (v : Nat) (s t : State) : Prop :=
  (t.regs.get d.slot).toNat = mergedValue d (s.regs.get d.slot).toNat v ∧
    ∀ q, q ≠ d.slot → t.regs.get q = s.regs.get q

/-- The low `w.bytes` bytes of the number `v` are at `a`, low byte first, and every other byte reads as before (R47). -/
def BytesStored (a : Nat) (w : Width) (v : Nat) (s t : State) : Prop :=
  (Memory.read t.mem a).toNat = v % 256 ∧
    (w = .word → (Memory.read t.mem (a + 1)).toNat = v / 256 % 256) ∧
    ∀ b, b < a ∨ a + w.bytes ≤ b → Memory.read t.mem b = Memory.read s.mem b

/-- Instruction `i` moved the cursor past itself, wrote `v` to register `d`, and changed nothing else but perhaps the
flags. -/
def WritesRegister (i : Instr) (d : RegOp) (v : Nat) (s t : State) : Prop :=
  RegisterWritten d v s t ∧ SameMemory s t ∧ t.pc = s.pc + i.length ∧ SameBookkeeping s t

/-- Instruction `i` moved the cursor past itself, stored `v` at `a`, and changed nothing else. -/
def StoresBytes (i : Instr) (a : Nat) (w : Width) (v : Nat) (s t : State) : Prop :=
  BytesStored a w v s t ∧ t.regs = s.regs ∧ t.flags = s.flags ∧ t.pc = s.pc + i.length ∧ SameBookkeeping s t

/-- Both flags are set from the number `r`, the result of an operation of width `w`, and no other FLAGS bit changes
(R122). -/
def FlagsFrom (w : Width) (r : Nat) (s t : State) : Prop :=
  t.reservedFlags = s.reservedFlags ∧
    if w = .byte ∧ s.cfg.narrowFlags = .native8 then
      (t.zf = true ↔ r % 256 = 0) ∧ (t.sf = true ↔ 128 ≤ r % 256)
    else (t.zf = true ↔ r = 0) ∧ (t.sf = true ↔ 32768 ≤ r)

/-! ### Values -/

/-- The number in the `w.bytes` bytes of memory at `a`, low byte first (R46). -/
def memValue (s : State) (a : Nat) (w : Width) : Nat :=
  match w with
  | .byte => (Memory.read s.mem a).toNat
  | .word => (Memory.read s.mem a).toNat + 256 * (Memory.read s.mem (a + 1)).toNat

/-- The number in the register that `r` names (R22). -/
def regValue (s : State) (r : RegOp) : Nat :=
  match r.width, r.off with
  | .word, _ => (s.regs.get r.slot).toNat
  | .byte, .low => (s.regs.get r.slot).toNat % 256
  | .byte, .high => (s.regs.get r.slot).toNat / 256

/-- The number in a register or memory operand of an instruction of width `w` (R100). -/
def rmValue (s : State) (w : Width) : RmOp → Nat
  | .reg r => regValue s r
  | .mem m => memValue s (s.eaValue m).toNat w

/-- The number an immediate has in an operation of width `w` (R76). -/
def immNumber (s : State) (w : Width) : Imm → Nat
  | .imm16 v => v.toNat
  | .imm8 v => if w = .word ∧ s.cfg.imm8Ext = .sign ∧ 128 ≤ v.toNat then v.toNat + 65280 else v.toNat

/-- The result of an arithmetic operation, on integers and then reduced to 16 bits (R121). -/
def resultNumber : ArithOp → Nat → Nat → Nat
  | .add, a, b => (a + b) % 65536
  | .sub, a, b => (((a : Int) - b) % 65536).toNat
  | .cmp, a, b => (((a : Int) - b) % 65536).toNat

/-- The base-register sum of an effective address, on unbounded numbers (R42). -/
def baseNumber (s : State) : EaBase → Nat
  | .bxSi => (s.regs.get .bx).toNat + (s.regs.get .si).toNat
  | .bxDi => (s.regs.get .bx).toNat + (s.regs.get .di).toNat
  | .bpSi => (s.regs.get .bp).toNat + (s.regs.get .si).toNat
  | .bpDi => (s.regs.get .bp).toNat + (s.regs.get .di).toNat
  | .si => (s.regs.get .si).toNat
  | .di => (s.regs.get .di).toNat
  | .bp => (s.regs.get .bp).toNat
  | .bx => (s.regs.get .bx).toNat

/-- An access of width `w` at effective address `m` stays inside the data memory (R46). -/
def EaInBounds (s : State) (w : Width) (m : Ea) : Prop :=
  (s.eaValue m).toNat + w.bytes ≤ s.cfg.memSize

/-- A register or memory operand that can be accessed. -/
def RmInBounds (s : State) (w : Width) : RmOp → Prop
  | .reg _ => True
  | .mem m => EaInBounds s w m

/-- `m` is an operand of the decoded record of `i`: the instruction's memory operand (R60, R221). -/
def HasAddress (i : Instr) (m : Ea) : Prop :=
  (i.record 0).dst = .ea m ∨ (i.record 0).src = some (.ea m)

/-! ### What timing may not touch -/

/-- A state without its timing: `CYC`, the output port and the cost parameters removed (R223). -/
def State.untimed (s : State) : State :=
  { s with
    cyc := 0
    out := none
    cfg := { s.cfg with
      penaltyKey := .dispSize
      costState := .post
      estimatorOn := true
      baseMov := ⟨0, 0, 0, 0, 0, 0, 0⟩
      baseAdd := ⟨0, 0, 0, 0, 0, 0⟩
      eaNoDisp := ⟨0, 0, 0, 0, 0, 0, 0, 0⟩
      eaDisp := ⟨0, 0, 0, 0, 0, 0, 0, 0⟩
      eaDirect := 0 } }

/-- Two outcomes of the same kind, with related next states or the same reason. -/
def Alike (r : State → State → Prop) :
    Host.Outcome State Fault Refusal → Host.Outcome State Fault Refusal → Prop
  | .next s, .next t => r s t
  | .fault f, .fault g => f = g
  | .refused p, .refused q => p = q
  | .next _, .fault _ => False
  | .next _, .refused _ => False
  | .fault _, .next _ => False
  | .fault _, .refused _ => False
  | .refused _, .next _ => False
  | .refused _, .fault _ => False

/-- Two outcomes that differ at most in timing. -/
def SameUntimed : Host.Outcome State Fault Refusal → Host.Outcome State Fault Refusal → Prop :=
  Alike fun s t => s.untimed = t.untimed

/-- Two outcomes that differ at most in the flags byte. -/
def SameButFlags : Host.Outcome State Fault Refusal → Host.Outcome State Fault Refusal → Prop :=
  Alike fun s t => s = { t with flags := s.flags }

/-! ### The opcode map -/

/-- The 68 legal first bytes, as the opcode map shows them (R89). -/
abbrev LegalOpcode (b : Byte) : Prop :=
  b.toNat ≤ 0x05 ∨ (0x28 ≤ b.toNat ∧ b.toNat ≤ 0x2D) ∨ (0x38 ≤ b.toNat ∧ b.toNat ≤ 0x3D) ∨
    (0x70 ≤ b.toNat ∧ b.toNat ≤ 0x83) ∨ (0x88 ≤ b.toNat ∧ b.toNat ≤ 0x8B) ∨ (0xA0 ≤ b.toNat ∧ b.toNat ≤ 0xA3) ∨
    (0xB0 ≤ b.toNat ∧ b.toNat ≤ 0xBF) ∨ (0xC6 ≤ b.toNat ∧ b.toNat ≤ 0xC7) ∨ (0xE0 ≤ b.toNat ∧ b.toNat ≤ 0xE3)

/-- A row of spec/opcode_table.json: its name, how many bits its pair covers, `match` and `mask`. -/
structure TableRow where
  form : Form
  nbits : Nat
  value : Nat
  mask : Nat
deriving DecidableEq, Repr

/-- The number that a row's pair applies to: the opcode byte, or `byte0 * 256 + byte1` (spec/INDEX.md). -/
def tableNumber (nbits : Nat) : List Byte → Option Nat
  | [] => none
  | b :: [] => if nbits = 8 then some b.toNat else none
  | b :: m :: _ => some (if nbits = 8 then b.toNat else b.toNat * 256 + m.toNat)

/-- The bytes select the row: their number AND `mask` is `match` (spec/INDEX.md). -/
def TableRow.selects (r : TableRow) (bs : List Byte) : Prop :=
  (tableNumber r.nbits bs).map (fun n => n &&& r.mask) = some r.value

/-- The rows of the RM family. -/
def registerRows : List TableRow :=
  [⟨.MOV_RM_R, 8, 0x88, 0xFE⟩, ⟨.MOV_R_RM, 8, 0x8A, 0xFE⟩,
   ⟨.ADD_RM_R, 8, 0x00, 0xFE⟩, ⟨.ADD_R_RM, 8, 0x02, 0xFE⟩,
   ⟨.SUB_RM_R, 8, 0x28, 0xFE⟩, ⟨.SUB_R_RM, 8, 0x2A, 0xFE⟩,
   ⟨.CMP_RM_R, 8, 0x38, 0xFE⟩, ⟨.CMP_R_RM, 8, 0x3A, 0xFE⟩]

/-- The rows of the GRP1 family. -/
def immediateRows : List TableRow :=
  [⟨.ADD_RM_IMM, 16, 0x8000, 0xFC38⟩, ⟨.ADD_RM_IMM_R1, 16, 0x8008, 0xFC38⟩,
   ⟨.ADD_RM_IMM_R2, 16, 0x8010, 0xFC38⟩, ⟨.ADD_RM_IMM_R3, 16, 0x8018, 0xFC38⟩,
   ⟨.ADD_RM_IMM_R4, 16, 0x8020, 0xFC38⟩, ⟨.SUB_RM_IMM, 16, 0x8028, 0xFC38⟩,
   ⟨.ADD_RM_IMM_R6, 16, 0x8030, 0xFC38⟩, ⟨.CMP_RM_IMM, 16, 0x8038, 0xFC38⟩]

/-- The rows of the MRI, RI, AM and AI families. -/
def otherRows : List TableRow :=
  [⟨.MOV_RM_IMM, 8, 0xC6, 0xFE⟩, ⟨.MOV_R_IMM, 8, 0xB0, 0xF0⟩,
   ⟨.MOV_ACC_MEM, 8, 0xA0, 0xFE⟩, ⟨.MOV_MEM_ACC, 8, 0xA2, 0xFE⟩,
   ⟨.ADD_ACC_IMM, 8, 0x04, 0xFE⟩, ⟨.SUB_ACC_IMM, 8, 0x2C, 0xFE⟩,
   ⟨.CMP_ACC_IMM, 8, 0x3C, 0xFE⟩]

/-- The rows of the J family. -/
def jumpRows : List TableRow :=
  [⟨.jump .jo, 8, 0x70, 0xFF⟩, ⟨.jump .jno, 8, 0x71, 0xFF⟩,
   ⟨.jump .jb, 8, 0x72, 0xFF⟩, ⟨.jump .jnb, 8, 0x73, 0xFF⟩,
   ⟨.jump .je, 8, 0x74, 0xFF⟩, ⟨.jump .jnz, 8, 0x75, 0xFF⟩,
   ⟨.jump .jbe, 8, 0x76, 0xFF⟩, ⟨.jump .ja, 8, 0x77, 0xFF⟩,
   ⟨.jump .js, 8, 0x78, 0xFF⟩, ⟨.jump .jns, 8, 0x79, 0xFF⟩,
   ⟨.jump .jp, 8, 0x7A, 0xFF⟩, ⟨.jump .jnp, 8, 0x7B, 0xFF⟩,
   ⟨.jump .jl, 8, 0x7C, 0xFF⟩, ⟨.jump .jnl, 8, 0x7D, 0xFF⟩,
   ⟨.jump .jle, 8, 0x7E, 0xFF⟩, ⟨.jump .jg, 8, 0x7F, 0xFF⟩,
   ⟨.jump .loopnz, 8, 0xE0, 0xFF⟩, ⟨.jump .loopz, 8, 0xE1, 0xFF⟩,
   ⟨.jump .loop, 8, 0xE2, 0xFF⟩, ⟨.jump .jcxz, 8, 0xE3, 0xFF⟩]

/-- The 43 rows of spec/opcode_table.json. -/
def opcodeTable : List TableRow :=
  registerRows ++ immediateRows ++ otherRows ++ jumpRows

end Sys2Proof.Machine
end

