-- ==== Sys2Proof/Certificates/Slice0/Obligations.lean ====
section
/-! DEFINITION. The statements about the block that are left to the provers. Each docstring names the rule or the section
it formalises; where a statement rests on a choice the spec marks as its own, it says so. -/

open Sys2Proof Sys2Proof.Machine

/-! ### Decoding and encoding (spec/30_encoding.md) -/

/-- Words written out from the encodings of R78 to R84 decode to the instructions they stand for. The opcode values but
0x89 are the spec's own choice (D2). -/
def Obligations.WrittenWordsDecode : Prop :=
  decode [0x89, 0xD8] = .ok (.movRmR .word (.reg ⟨.ax, .low, .word⟩) ⟨.bx, .low, .word⟩, []) ∧
  decode [0xB8, 0x2C, 0x01] = .ok (.movRImm .word ⟨.ax, .low, .word⟩ (.imm16 0x012C), []) ∧
  decode [0x8A, 0x06, 0xE8, 0x03] = .ok (.movRRm .byte ⟨.ax, .low, .byte⟩ (.mem (.direct 0x03E8)), []) ∧
  decode [0xC7, 0x86, 0xE8, 0x03, 0x2C, 0x01] =
    .ok (.movRmImm .word (.mem (.disp16 .bp 0x03E8)) (.imm16 0x012C), []) ∧
  decode [0x83, 0xC0, 0xFF] = .ok (.addRmImm .word (.reg ⟨.ax, .low, .word⟩) (.imm8 0xFF), []) ∧
  decode [0x2A, 0xE0] = .ok (.subRRm .byte ⟨.ax, .high, .byte⟩ (.reg ⟨.ax, .low, .byte⟩), []) ∧
  decode [0x3D, 0x00, 0x00] = .ok (.cmpAccImm .word (.imm16 0), []) ∧
  decode [0xA3, 0xE8, 0x03] = .ok (.movMemAcc .word 0x03E8, []) ∧
  decode [0x75, 0xFE] = .ok (.jnz 0xFE, []) ∧
  decode [0xE2, 0xFE] = .ok (.loop 0xFE, [])

/-- Decoding the encoding of a well-formed instruction gives it back, with the bytes after it. -/
def Obligations.DecodeOfEncode : Prop :=
  ∀ (i : Instr) (rest : List Byte), i.wellFormed = true → decode (encode i ++ rest) = .ok (i, rest)

/-- Encoding a decoded instruction gives its bytes back, except where R90 says that two encodings are one instruction:
opcode 0x82, and 0xC6 or 0xC7 with a nonzero `reg` field. -/
def Obligations.EncodeOfDecode : Prop :=
  ∀ (b : Byte) (bs : List Byte) (i : Instr) (rest : List Byte), decode (b :: bs) = .ok (i, rest) → b ≠ 0x82 →
    ((b = 0xC6 ∨ b = 0xC7) → ∀ m ms, bs = m :: ms → regField m = 0) → encode i ++ rest = b :: bs

/-- A decoded instruction is well formed, and exactly its length of bytes is consumed, 2 to 6 (R62, R87, R88). -/
def Obligations.DecodeConsumesLength : Prop :=
  ∀ (bs : List Byte) (i : Instr) (rest : List Byte), decode bs = .ok (i, rest) →
    i.wellFormed = true ∧ ∃ used, bs = used ++ rest ∧ used.length = i.length ∧ 2 ≤ i.length ∧ i.length ≤ 6

/-- An opcode byte is unknown exactly when the opcode map shows no instruction for it (R86, R89). The map's values are
the spec's own choice (D2). -/
def Obligations.UnknownOpcodeByMap : Prop :=
  ∀ (b : Byte) (bs : List Byte), decode (b :: bs) = .error (.unknownOpcode b) ↔ ¬ LegalOpcode b

/-- Every proper beginning of an instruction is a truncated stream, reported with the opcode byte, whichever of its
encodings began it (R61, R182; which byte is reported is the spec's own choice, D17). -/
def Obligations.ProperBeginningIsTruncated : Prop :=
  (∀ (i : Instr) (n : Nat), i.wellFormed = true → 0 < n → n < i.length →
    decode ((encode i).take n) = .error (.truncated i.opcode)) ∧
  ∀ (b : Byte) (bs : List Byte) (i : Instr) (rest : List Byte) (n : Nat), decode (b :: bs) = .ok (i, rest) → 0 < n →
    n < i.length → decode ((b :: bs).take n) = .error (.truncated b)

/-- Every byte sequence decodes or faults (R90); GRP1 with `reg` 001, 010, 011, 100 or 110 is an ADD; 0x82 decodes like
0x80; 0xC6 and 0xC7 decode the same whatever their `reg` field. The opcode values and the ignored field are the spec's own
choice (D2, D20). -/
def Obligations.AliasEncodings : Prop :=
  (∀ b bs, (∃ p, decode (b :: bs) = .ok p) ∨ decode (b :: bs) = .error (.unknownOpcode b) ∨
    decode (b :: bs) = .error (.truncated b)) ∧
  (∀ (b m : Byte) bs i rest, b &&& 0xFC = 0x80 → regField m ∈ [1, 2, 3, 4, 6] → decode (b :: m :: bs) = .ok (i, rest) →
    (i.record 0).op = .arith .add) ∧
  (∀ bs p, decode (0x82 :: bs) = .ok p ↔ decode (0x80 :: bs) = .ok p) ∧
  (∀ b mod reg rm bs, b = 0xC6 ∨ b = 0xC7 →
    decode (b :: modeByte mod reg rm :: bs) = decode (b :: modeByte mod 0 rm :: bs))

/-- R67 to R71: what the addressing-mode resolver returns in each mode, and the bytes it consumes. With them the tables it
names: the register of each selector under each width (R65), and the base combination of each `rm` (R42). -/
def Obligations.ResolverModes : Prop :=
  ([0, 1, 2, 3, 4, 5, 6, 7].map fun r => regSel r .word) =
    [Slot.ax, .cx, .dx, .bx, .sp, .bp, .si, .di].map (fun i => ⟨i, .low, .word⟩) ∧
  ([0, 1, 2, 3].map fun r => regSel r .byte) = [Slot.ax, .cx, .dx, .bx].map (fun i => ⟨i, .low, .byte⟩) ∧
  ([4, 5, 6, 7].map fun r => regSel r .byte) = [Slot.ax, .cx, .dx, .bx].map (fun i => ⟨i, .high, .byte⟩) ∧
  [0, 1, 2, 3, 4, 5, 6, 7].map EaBase.ofCode = [.bxSi, .bxDi, .bpSi, .bpDi, .si, .di, .bp, .bx] ∧
  ∀ (rm : BitVec 3) (w : Width) (lo hi : Byte) (bs : List Byte),
    resolve 3 rm w bs = some (.reg (regSel rm w), bs) ∧
    (rm ≠ 6 → resolve 0 rm w bs = some (.mem (.base (EaBase.ofCode rm)), bs)) ∧
    resolve 0 6 w (lo :: hi :: bs) = some (.mem (.direct (hi ++ lo)), bs) ∧
    resolve 1 rm w (lo :: bs) = some (.mem (.disp8 (EaBase.ofCode rm) lo), bs) ∧
    resolve 2 rm w (lo :: hi :: bs) = some (.mem (.disp16 (EaBase.ofCode rm) (hi ++ lo)), bs)

/-- A zero displacement keeps its mode (R72), and the resolver never changes the mode it decoded, an inference the spec
marks as its own. -/
def Obligations.ZeroDisplacementKeepsMode : Prop :=
  (∀ rm w bs, resolve 1 rm w (0 :: bs) = some (.mem (.disp8 (EaBase.ofCode rm) 0), bs)) ∧
  (∀ rm w bs, resolve 2 rm w (0 :: 0 :: bs) = some (.mem (.disp16 (EaBase.ofCode rm) 0), bs)) ∧
  ∀ mod rm w bs e rest, resolve mod rm w bs = some (e, rest) → e.mod = mod

/-! ### Registers, flags and memory (spec/10_state.md, spec/20_memory.md) -/

/-- R22 and R23: the value of a register operand, what a 16-bit write replaces, and that a half write leaves the other
half of its slot and every other slot as they were. -/
def Obligations.RegisterReadAndWrite : Prop :=
  ∀ (s : State) (i : Slot) (v : Word),
    s.readReg ⟨i, .low, .word⟩ = s.regs.get i ∧
    (s.readReg ⟨i, .low, .byte⟩).toNat = (s.regs.get i).toNat % 256 ∧
    (s.readReg ⟨i, .high, .byte⟩).toNat = (s.regs.get i).toNat / 256 ∧
    (s.writeReg ⟨i, .low, .word⟩ v).regs.get i = v ∧
    ((s.writeReg ⟨i, .low, .byte⟩ v).readReg ⟨i, .low, .byte⟩).toNat = v.toNat % 256 ∧
    (s.writeReg ⟨i, .low, .byte⟩ v).readReg ⟨i, .high, .byte⟩ = s.readReg ⟨i, .high, .byte⟩ ∧
    ((s.writeReg ⟨i, .high, .byte⟩ v).readReg ⟨i, .high, .byte⟩).toNat = v.toNat % 256 ∧
    (s.writeReg ⟨i, .high, .byte⟩ v).readReg ⟨i, .low, .byte⟩ = s.readReg ⟨i, .low, .byte⟩ ∧
    ∀ half w q, q ≠ i → (s.writeReg ⟨i, half, w⟩ v).regs.get q = s.regs.get q

/-- R122: both flags are recomputed from the result, for both values of `P_NARROW_FLAGS`, and no other FLAGS bit and no
other part of the state changes. -/
def Obligations.FlagUpdate : Prop :=
  ∀ (s : State) (w : Width) (r : Word),
    FlagsFrom w r.toNat s (s.setFlags w r) ∧ s.setFlags w r = { s with flags := (s.setFlags w r).flags }

/-- R42 and R43: the value of an effective address, for both values of `P_DISP8_EXT`; a direct address is its own value. -/
def Obligations.EffectiveAddressValue : Prop :=
  ∀ (s : State) (b : EaBase) (d : Byte) (d' : Word),
    (b ≠ .bp → (s.eaValue (.base b)).toNat = baseNumber s b % 65536) ∧
    (s.cfg.disp8Ext = .zero → (s.eaValue (.disp8 b d)).toNat = (baseNumber s b + d.toNat) % 65536) ∧
    (s.cfg.disp8Ext = .sign → ((s.eaValue (.disp8 b d)).toNat : Int) = ((baseNumber s b : Int) + d.toInt) % 65536) ∧
    (s.eaValue (.disp16 b d')).toNat = (baseNumber s b + d'.toNat) % 65536 ∧
    s.eaValue (.direct d') = d'

/-- A stored word has its low byte at the lower address, reads back whole and bytewise, and no other byte changes. The
byte order is the spec's own choice (D4). -/
def Obligations.StoredWordReadsBack : Prop :=
  ∀ (s : State) (a : Nat) (v : Word), Memory.wf s.mem → a + 2 ≤ s.cfg.memSize →
    ∃ t, s.memWrite a .word v = .ok t ∧ BytesStored a .word v.toNat s t ∧ t.memRead a .word = .ok v ∧
      (∃ lo, t.memRead a .byte = .ok lo ∧ lo.toNat = v.toNat % 256) ∧
      ∃ hi, t.memRead (a + 1) .byte = .ok hi ∧ hi.toNat = v.toNat / 256

/-! ### Moves (spec/40_mov.md) -/

/-- Every move whose destination is a register or the accumulator completes: the destination holds the source's value,
the flags, memory and every other register stay, and the cursor passes the instruction. That an accumulator operand is
`al` or `ax` is the spec's own choice (D10). -/
def Obligations.MoveToRegister : Prop :=
  ∀ s : State,
    (∀ w d r, ∃ t, exec (.movRmR w (.reg d) r) s = .next t ∧
      WritesRegister (.movRmR w (.reg d) r) d (regValue s r) s t ∧ t.flags = s.flags) ∧
    (∀ w d e, RmInBounds s w e → ∃ t, exec (.movRRm w d e) s = .next t ∧
      WritesRegister (.movRRm w d e) d (rmValue s w e) s t ∧ t.flags = s.flags) ∧
    (∀ w d i, ∃ t, exec (.movRmImm w (.reg d) i) s = .next t ∧
      WritesRegister (.movRmImm w (.reg d) i) d (immNumber s w i) s t ∧ t.flags = s.flags) ∧
    (∀ w d i, ∃ t, exec (.movRImm w d i) s = .next t ∧
      WritesRegister (.movRImm w d i) d (immNumber s w i) s t ∧ t.flags = s.flags) ∧
    ∀ w a, EaInBounds s w (.direct a) → ∃ t, exec (.movAccMem w a) s = .next t ∧
      WritesRegister (.movAccMem w a) ⟨.ax, .low, w⟩ (memValue s a.toNat w) s t ∧ t.flags = s.flags

/-- Every move whose destination is memory completes: the source's `1 + w` bytes are at the effective address, low byte
first, and every other byte, every register and the flags stay. The width of a register source's store is the spec's own
choice (D21), as is the byte order (D4). -/
def Obligations.MoveToMemory : Prop :=
  ∀ s : State, Memory.wf s.mem →
    (∀ w m r, EaInBounds s w m → ∃ t, exec (.movRmR w (.mem m) r) s = .next t ∧
      StoresBytes (.movRmR w (.mem m) r) (s.eaValue m).toNat w (regValue s r) s t) ∧
    (∀ w m i, EaInBounds s w m → ∃ t, exec (.movRmImm w (.mem m) i) s = .next t ∧
      StoresBytes (.movRmImm w (.mem m) i) (s.eaValue m).toNat w (immNumber s w i) s t) ∧
    ∀ w a, EaInBounds s w (.direct a) → ∃ t, exec (.movMemAcc w a) s = .next t ∧
      StoresBytes (.movMemAcc w a) a.toNat w (regValue s ⟨.ax, .low, w⟩) s t

/-- R110: after any sequence of moves the flags are what they were before it. -/
def Obligations.MovesKeepFlags : Prop :=
  ∀ (is : List Instr) (s t : State), (∀ i ∈ is, (i.record 0).op = .mov) → execAll is s = .next t → t.flags = s.flags

/-! ### Add, subtract and compare (spec/41_arith.md) -/

/-- Every add whose destination is a register completes: the register holds the sum's low bits, both flags come from the
16-bit sum, and memory and every other register stay. -/
def Obligations.AddToRegister : Prop :=
  ∀ s : State,
    (∀ w d r, ∃ t, exec (.addRmR w (.reg d) r) s = .next t ∧
      WritesRegister (.addRmR w (.reg d) r) d (resultNumber .add (regValue s d) (regValue s r)) s t ∧
      FlagsFrom w (resultNumber .add (regValue s d) (regValue s r)) s t) ∧
    (∀ w d e, RmInBounds s w e → ∃ t, exec (.addRRm w d e) s = .next t ∧
      WritesRegister (.addRRm w d e) d (resultNumber .add (regValue s d) (rmValue s w e)) s t ∧
      FlagsFrom w (resultNumber .add (regValue s d) (rmValue s w e)) s t) ∧
    ∀ w d i, ∀ form ∈ [Instr.addRmImm, Instr.addRmImmR1, Instr.addRmImmR2, Instr.addRmImmR3, Instr.addRmImmR4,
        Instr.addRmImmR6], ∃ t, exec (form w (.reg d) i) s = .next t ∧
      WritesRegister (form w (.reg d) i) d (resultNumber .add (regValue s d) (immNumber s w i)) s t ∧
      FlagsFrom w (resultNumber .add (regValue s d) (immNumber s w i)) s t

/-- Every add whose destination is memory completes: the sum's low bytes are at the effective address, and every other
byte, every register and both flags stay. That the result is written is the spec's own choice (D9). -/
def Obligations.AddToMemory : Prop :=
  ∀ s : State, Memory.wf s.mem →
    (∀ w m r, EaInBounds s w m → ∃ t, exec (.addRmR w (.mem m) r) s = .next t ∧
      StoresBytes (.addRmR w (.mem m) r) (s.eaValue m).toNat w
        (resultNumber .add (memValue s (s.eaValue m).toNat w) (regValue s r)) s t) ∧
    ∀ w m i, EaInBounds s w m → ∀ form ∈ [Instr.addRmImm, Instr.addRmImmR1, Instr.addRmImmR2, Instr.addRmImmR3,
        Instr.addRmImmR4, Instr.addRmImmR6], ∃ t, exec (form w (.mem m) i) s = .next t ∧
      StoresBytes (form w (.mem m) i) (s.eaValue m).toNat w
        (resultNumber .add (memValue s (s.eaValue m).toNat w) (immNumber s w i)) s t

/-- Every sub whose destination is a register completes: the register holds the difference's low bits, both flags come
from the 16-bit difference, and memory and every other register stay. -/
def Obligations.SubToRegister : Prop :=
  ∀ s : State,
    (∀ w d r, ∃ t, exec (.subRmR w (.reg d) r) s = .next t ∧
      WritesRegister (.subRmR w (.reg d) r) d (resultNumber .sub (regValue s d) (regValue s r)) s t ∧
      FlagsFrom w (resultNumber .sub (regValue s d) (regValue s r)) s t) ∧
    (∀ w d e, RmInBounds s w e → ∃ t, exec (.subRRm w d e) s = .next t ∧
      WritesRegister (.subRRm w d e) d (resultNumber .sub (regValue s d) (rmValue s w e)) s t ∧
      FlagsFrom w (resultNumber .sub (regValue s d) (rmValue s w e)) s t) ∧
    ∀ w d i, ∃ t, exec (.subRmImm w (.reg d) i) s = .next t ∧
      WritesRegister (.subRmImm w (.reg d) i) d (resultNumber .sub (regValue s d) (immNumber s w i)) s t ∧
      FlagsFrom w (resultNumber .sub (regValue s d) (immNumber s w i)) s t

/-- Every sub whose destination is memory completes: the difference's low bytes are at the effective address, and every
other byte, every register and both flags stay. That the result is written is the spec's own choice (D9). -/
def Obligations.SubToMemory : Prop :=
  ∀ s : State, Memory.wf s.mem →
    (∀ w m r, EaInBounds s w m → ∃ t, exec (.subRmR w (.mem m) r) s = .next t ∧
      StoresBytes (.subRmR w (.mem m) r) (s.eaValue m).toNat w
        (resultNumber .sub (memValue s (s.eaValue m).toNat w) (regValue s r)) s t) ∧
    ∀ w m i, EaInBounds s w m → ∃ t, exec (.subRmImm w (.mem m) i) s = .next t ∧
      StoresBytes (.subRmImm w (.mem m) i) (s.eaValue m).toNat w
        (resultNumber .sub (memValue s (s.eaValue m).toNat w) (immNumber s w i)) s t

/-- Every cmp whose operand 1 is a register completes: both flags come from the 16-bit difference, and nothing else but
the cursor changes. -/
def Obligations.CompareRegister : Prop :=
  ∀ s : State,
    (∀ w d r, ∃ t, exec (.cmpRmR w (.reg d) r) s = .next t ∧
      FlagsFrom w (resultNumber .cmp (regValue s d) (regValue s r)) s t ∧
      t = { s with pc := s.pc + (Instr.cmpRmR w (.reg d) r).length, flags := t.flags }) ∧
    (∀ w d e, RmInBounds s w e → ∃ t, exec (.cmpRRm w d e) s = .next t ∧
      FlagsFrom w (resultNumber .cmp (regValue s d) (rmValue s w e)) s t ∧
      t = { s with pc := s.pc + (Instr.cmpRRm w d e).length, flags := t.flags }) ∧
    ∀ w d i, ∃ t, exec (.cmpRmImm w (.reg d) i) s = .next t ∧
      FlagsFrom w (resultNumber .cmp (regValue s d) (immNumber s w i)) s t ∧
      t = { s with pc := s.pc + (Instr.cmpRmImm w (.reg d) i).length, flags := t.flags }

/-- Every cmp whose operand 1 is memory completes and changes nothing but the cursor. That it reads its operand is the
spec's own choice (D21). -/
def Obligations.CompareMemory : Prop :=
  ∀ (s : State) (w : Width) (m : Ea), EaInBounds s w m →
    (∀ r, exec (.cmpRmR w (.mem m) r) s = .next { s with pc := s.pc + (Instr.cmpRmR w (.mem m) r).length }) ∧
    ∀ i, exec (.cmpRmImm w (.mem m) i) s = .next { s with pc := s.pc + (Instr.cmpRmImm w (.mem m) i).length }

/-- With `P_ACC_DEST = as_register` the accumulator forms complete as their register forms do on `al` or `ax`. The
parameter and its values are the spec's own choice (D10). -/
def Obligations.AccumulatorArithmetic : Prop :=
  ∀ (s : State) (w : Width) (i : Imm), s.cfg.accDest = .asRegister →
    (∃ t, exec (.addAccImm w i) s = .next t ∧
      WritesRegister (.addAccImm w i) ⟨.ax, .low, w⟩
        (resultNumber .add (regValue s ⟨.ax, .low, w⟩) (immNumber s w i)) s t ∧
      FlagsFrom w (resultNumber .add (regValue s ⟨.ax, .low, w⟩) (immNumber s w i)) s t) ∧
    (∃ t, exec (.subAccImm w i) s = .next t ∧
      WritesRegister (.subAccImm w i) ⟨.ax, .low, w⟩
        (resultNumber .sub (regValue s ⟨.ax, .low, w⟩) (immNumber s w i)) s t ∧
      FlagsFrom w (resultNumber .sub (regValue s ⟨.ax, .low, w⟩) (immNumber s w i)) s t) ∧
    ∃ t, exec (.cmpAccImm w i) s = .next t ∧
      FlagsFrom w (resultNumber .cmp (regValue s ⟨.ax, .low, w⟩) (immNumber s w i)) s t ∧
      t = { s with pc := s.pc + (Instr.cmpAccImm w i).length, flags := t.flags }

/-- With `P_ACC_DEST = refuse` the accumulator forms raise Unmodelled with their opcode byte. The parameter and its values
are the spec's own choice (D10). -/
def Obligations.AccumulatorRefused : Prop :=
  ∀ (s : State) (w : Width) (i : Imm), s.cfg.accDest = .refuse →
    exec (.addAccImm w i) s = .fault (.unmodelled (if w = .word then 0x05 else 0x04)) ∧
    exec (.subAccImm w i) s = .fault (.unmodelled (if w = .word then 0x2D else 0x2C)) ∧
    exec (.cmpAccImm w i) s = .fault (.unmodelled (if w = .word then 0x3D else 0x3C))

/-! ### Control transfer (spec/42_control.md) -/

/-- jnz completes: with ZF set it only moves past itself, and with ZF clear it goes to the byte after it plus the signed
displacement when that lies in `0..L`; nothing else changes. The range is the spec's own choice (D12). -/
def Obligations.JnzBranches : Prop :=
  ∀ (s : State) (v : Byte),
    (s.zf = true → exec (.jnz v) s = .next { s with pc := s.pc + 2 }) ∧
    ∀ t : Nat, s.zf = false → (t : Int) = s.pc + 2 + v.toInt → t ≤ s.stream.length →
      exec (.jnz v) s = .next { s with pc := t }

/-- A taken jnz whose target lies below 0 or past `L` raises JumpOutOfStream with the target. The fault is the spec's own
choice (D12). -/
def Obligations.JnzOutOfStream : Prop :=
  ∀ (s : State) (v : Byte) (t : Int), s.zf = false → t = s.pc + 2 + v.toInt → t < 0 ∨ (s.stream.length : Int) < t →
    exec (.jnz v) s = .fault (.jumpOutOfStream t)

/-- With `P_JCC_MODE = noop` each of jo, jno, jb, jnb, je, jbe, ja, js, jns, jp, jnp, jl, jnl, jle, jg, loopnz, loopz, loop
and jcxz completes and changes nothing but the cursor. The parameter and its values are the spec's own choice (D11). -/
def Obligations.InactiveJumpsOnlyAdvance : Prop :=
  ∀ (s : State) (op : JumpOp) (v : Byte), op ≠ .jnz → s.cfg.jccMode = .noop →
    exec (op.instr v) s = .next { s with pc := s.pc + 2 }

/-- With `P_JCC_MODE = refuse` every jump or loop form but jnz raises Unmodelled with its opcode byte. The parameter and
its values are the spec's own choice (D11). -/
def Obligations.InactiveJumpsRefused : Prop :=
  ∀ (s : State) (op : JumpOp) (v : Byte), op ≠ .jnz → s.cfg.jccMode = .refuse →
    exec (op.instr v) s = .fault (.unmodelled op.code)

/-! ### Rules over all instructions -/

/-- An instruction whose memory operand passes `MEM_SIZE` raises MemOutOfBounds with the address and the width. The fault
is the spec's own choice (D16). -/
def Obligations.OutOfBoundsFaults : Prop :=
  ∀ (i : Instr) (s : State) (m : Ea), memoryOperand i = some m →
    s.cfg.memSize < (s.eaValue m).toNat + (i.record 0).w.bytes →
    exec i s = .fault (.memOutOfBounds (s.eaValue m).toNat (i.record 0).w.bytes)

/-- With `MEM_SIZE` at least 0x10001 no instruction raises MemOutOfBounds: an inference the spec marks as its own
(R183). -/
def Obligations.LargeMemoryNeverOutOfBounds : Prop :=
  ∀ (i : Instr) (s : State) (a n : Nat), 0x10001 ≤ s.cfg.memSize → exec i s ≠ .fault (.memOutOfBounds a n)

/-- Under the default parameters every instruction completes in every state, but for a taken jnz that leaves the stream.
The defaults it rests on are the spec's own choice: accumulator destinations as registers (D10), inactive jumps as no-ops
(D11), a memory of 2^20 bytes (D15); so is the range of a jump target (D12). -/
def Obligations.EveryInstructionCompletes : Prop :=
  ∀ (i : Instr) (s : State), s.cfg = Config.default →
    (∀ v, i = .jnz v → s.zf = false → 0 ≤ (s.pc : Int) + 2 + v.toInt ∧ (s.pc : Int) + 2 + v.toInt ≤ s.stream.length) →
    ∃ t, exec i s = .next t

/-- Only an add, sub or cmp whose operand 1 is no memory operand changes FLAGS, and it keeps the reserved bits. That an
accumulator counts as a register is the spec's own choice (D10). -/
def Obligations.FlagWriters : Prop :=
  ∀ (i : Instr) (s t : State), exec i s = .next t → t.reservedFlags = s.reservedFlags ∧
    (t.flags ≠ s.flags → ∃ op, (i.record 0).op = .arith op ∧ ∀ m, (i.record 0).dst ≠ .ea m)

/-- Only jnz reads ZF and nothing reads SF or a reserved flag bit: with other flags every instruction does the same but
for the flags, jnz if ZF is the same. -/
def Obligations.FlagReaders : Prop :=
  ∀ (i : Instr) (s : State) (f : Byte), ((∃ v, i = .jnz v) → f.getLsbD 6 = s.zf) →
    SameButFlags (exec i s) (exec i { s with flags := f })

/-- Only a move, add or sub whose destination is memory changes a byte of memory, and only among the `1 + w` bytes at its
effective address. -/
def Obligations.MemoryWriters : Prop :=
  ∀ (i : Instr) (s t : State) (a : Nat), exec i s = .next t → Memory.read t.mem a ≠ Memory.read s.mem a →
    ((i.record 0).op = .mov ∨ (i.record 0).op = .arith .add ∨ (i.record 0).op = .arith .sub) ∧
    ∃ m, (i.record 0).dst = .ea m ∧ (s.eaValue m).toNat ≤ a ∧ a < (s.eaValue m).toNat + (i.record 0).w.bytes

/-! ### The step (spec/60_exceptions.md, spec/70_reset_and_hazards.md) -/

/-- A step of a running machine runs the instruction decoded at the cursor. When it completes, the step keeps its next
state and emits the record; with the estimator on, the cost is computed in the state before or after by `P_COST_STATE`,
and its total, `base + ea + penalty` or nothing for NotComputed, is added to `CYC`. When it raises a fault, the step
changes nothing but the halt status, whose record holds the fault and the cursor, and emits nothing. That a fault is
recorded by a next state is the model's choice (log entry 6), as is the output port that holds the record (log entry 5);
`P_COST_STATE` is the spec's own (D24). -/
def Obligations.StepRunsDecoded : Prop :=
  ∀ (s : State) (i : Instr) (rest : List Byte), s.status = .running → decode (s.stream.drop s.pc) = .ok (i, rest) →
    (∀ t, exec i s = .next t → ∃ u, step s = .next u ∧ u = { t with cyc := u.cyc, out := u.out } ∧
      (s.cfg.estimatorOn = true → ∃ c, u.out = some ⟨i.record s.pc, some (c, u.cyc)⟩ ∧
        (s.cfg.costState = .pre → c = cost s i) ∧ (s.cfg.costState = .post → c = cost t i) ∧
        (c = .notComputed → u.cyc = s.cyc) ∧ ∀ b e p, c = .computed b e p → u.cyc = s.cyc + (b + e + p)) ∧
      (s.cfg.estimatorOn = false → u.cyc = s.cyc ∧ u.out = some ⟨i.record s.pc, none⟩)) ∧
    ∀ f, exec i s = .fault f → step s = .next { s with status := .faulted f s.pc, out := none }

/-- An opcode byte that no family has halts the run with UnknownOpcode and its value; no byte is skipped, nothing is
emitted and nothing else changes (R86, R181). The opcode map's values are the spec's own choice (D2); that the halt is a
next state, and that it clears the output port, is the model's (log entries 6 and 5). -/
def Obligations.UnknownOpcodeHalts : Prop :=
  ∀ (s : State) (b : Byte), s.status = .running → s.stream[s.pc]? = some b → ¬ LegalOpcode b →
    step s = .next { s with status := .faulted (.unknownOpcode b) s.pc, out := none }

/-- A stream that ends inside an instruction, whichever of its encodings began it, halts the run with Truncated, the opcode
byte and the instruction's start. The byte recorded is the spec's own choice (D17); that the halt is a next state, and
that it clears the output port, is the model's (log entries 6 and 5). -/
def Obligations.TruncationHalts : Prop :=
  ∀ s : State, s.status = .running →
    (∀ b, decode (s.stream.drop s.pc) = .error (.truncated b) →
      step s = .next { s with status := .faulted (.truncated b s.pc) s.pc, out := none }) ∧
    (∀ b bs i rest n, decode (b :: bs) = .ok (i, rest) → 0 < n → n < i.length → s.stream.drop s.pc = (b :: bs).take n →
      step s = .next { s with status := .faulted (.truncated b s.pc) s.pc, out := none }) ∧
    ∀ (i : Instr) (n : Nat), i.wellFormed = true → 0 < n → n < i.length → s.stream.drop s.pc = (encode i).take n →
      step s = .next { s with status := .faulted (.truncated i.opcode s.pc) s.pc, out := none }

/-- The run ends exactly when the loop test finds the cursor at `L`, an inference the spec marks as its own (R205), and
ending changes nothing but the halt status and the output port. That the loop test is a step of its own, and that it clears
the output port, is the model's choice (log entries 6 and 5). -/
def Obligations.RunEndsAtStreamEnd : Prop :=
  (∀ s : State, s.status = .running → s.pc = s.stream.length →
    step s = .next { s with status := .ended, out := none }) ∧
  ∀ s t : State, step s = .next t → (t.status = .ended ↔ s.pc = s.stream.length)

/-- R32: once the halt status is Ended or Faulted no further step is taken, so it never changes. -/
def Obligations.HaltedTakesNoStep : Prop :=
  ∀ s : State, s.status = .ended ∨ (∃ f p, s.status = .faulted f p) → ∀ t, step s ≠ .next t

/-- How a halted machine answers: with its fault, or with the refusal `runEnded`. The model's choice (log entry 6). -/
def Obligations.HaltedAnswers : Prop :=
  ∀ s : State, (s.status = .ended → step s = .refused .runEnded) ∧
    ∀ f p, s.status = .faulted f p → step s = .fault f

/-- In every state that meets the invariant a running machine takes a step: it completes an instruction, records a fault
or ends the run. That a fault is recorded by a step of its own is the model's choice (log entry 6). -/
def Obligations.RunningAlwaysSteps : Prop :=
  ∀ s : State, s.Inv → s.status = .running → ∃ t, step s = .next t

/-- Faults are precise: a step that records a fault changes no register, flag, memory byte, cursor or cycle count, only the
halt status and the output port, and the record's `pc` is the cursor. Precision is the spec's own choice (D18); that the
fault is recorded by a next state, and that it clears the output port, is the model's (log entries 6 and 5). -/
def Obligations.FaultsArePrecise : Prop :=
  ∀ (s t : State) (f : Fault) (p : Nat), step s = .next t → t.status = .faulted f p →
    p = s.pc ∧ t = { s with status := .faulted f s.pc, out := none }

/-- R29: the cursor moves by exactly the bytes of the instruction, a taken jnz then adds its signed displacement, and a
halting step leaves it at the first byte. -/
def Obligations.CursorMoves : Prop :=
  ∀ s t : State, step s = .next t →
    (t.status = .ended ∧ t.pc = s.pc) ∨ (∃ f, t.status = .faulted f s.pc ∧ t.pc = s.pc) ∨
    ∃ i rest, t.status = .running ∧ decode (s.stream.drop s.pc) = .ok (i, rest) ∧
      (s.stream.drop s.pc).length = i.length + rest.length ∧
      (∀ v, i = .jnz v → s.zf = false → (t.pc : Int) = (s.pc + i.length : Nat) + v.toInt) ∧
      ((∀ v, i = .jnz v → s.zf = true) → t.pc = s.pc + i.length)

/-- R30: no step changes the stream, whatever it stores to memory. -/
def Obligations.StreamIsReadOnly : Prop :=
  ∀ s t : State, step s = .next t → t.stream = s.stream

/-- No step changes a byte above 0x10000: an inference the spec marks as its own (R41). -/
def Obligations.HighMemoryUntouched : Prop :=
  ∀ (s t : State) (a : Nat), step s = .next t → 0x10000 < a → Memory.read t.mem a = Memory.read s.mem a

/-- A record is emitted by exactly the steps that complete an instruction, and it is that instruction's record: its start is
the cursor, its length the bytes consumed, and it has no source exactly for a jump or loop form. The output port that holds
it is the model's choice (log entry 5), as is the step of the loop test, which emits nothing (log entry 6). -/
def Obligations.EmissionPerInstruction : Prop :=
  ∀ s t : State, step s = .next t →
    (t.status ≠ .running → t.out = none) ∧
    (t.status = .running → ∃ i rest timing, decode (s.stream.drop s.pc) = .ok (i, rest) ∧
      t.out = some ⟨i.record s.pc, timing⟩ ∧ (i.record s.pc).start = s.pc ∧
      (i.record s.pc).len + rest.length = (s.stream.drop s.pc).length ∧
      ((i.record s.pc).src = none ↔ ∃ j, (i.record s.pc).op = .jump j))

/-- R223: no register, flag, memory byte, cursor or halt status depends on the cost parameters, `CYC` or what was emitted:
two states that differ only in those step alike. -/
def Obligations.TimingIsNotBehaviour : Prop :=
  ∀ s t : State, s.untimed = t.untimed → SameUntimed (step s) (step t)

/-- Every step keeps the invariant: memory canonical and inside the array, the cursor in the stream, the reserved flag
bits 0, `Ended` only at the end, the fault record at the cursor, and `CYC` 0 with the estimator off. -/
def Obligations.StepKeepsInvariant : Prop :=
  ∀ s t : State, s.Inv → step s = .next t → t.Inv

/-- Every state the host can launch meets the invariant. -/
def Obligations.LaunchMeetsInvariant : Prop :=
  ∀ (cfg : Config) (image : LaunchImage) (stream : List Byte), (launch cfg image stream).Inv

/-- The reset state meets the invariant. -/
def Obligations.ResetMeetsInvariant : Prop :=
  State.reset.Inv

/-- The reset state: registers, FLAGS, `pc` and `CYC` 0, every memory byte 0, and Ended at once for the empty stream. It
is the launch of an empty stream with no image. The values are the spec's own choice (D14); that the reset state is the
launch of an empty stream, and so has ended, is the model's (log entry 2). -/
def Obligations.ResetValues : Prop :=
  (∀ i, State.reset.regs.get i = 0) ∧ State.reset.flags = 0 ∧ State.reset.pc = 0 ∧ State.reset.cyc = 0 ∧
    (∀ a, Memory.read State.reset.mem a = 0) ∧ State.reset.status = .ended ∧
    State.reset = launch Config.default LaunchImage.zero []

/-- A launch takes registers, ZF, SF and memory from the host's image and starts the cursor, `CYC` and the reserved flag
bits at 0; it runs unless the stream is empty. The launch image is the spec's own choice (D14). -/
def Obligations.LaunchImageLoads : Prop :=
  ∀ (cfg : Config) (image : LaunchImage) (stream : List Byte),
    image.cells.Pairwise (fun c d => c.1 ≠ d.1) →
    let s := launch cfg image stream
    s.cfg = cfg ∧ s.stream = stream ∧ s.regs = image.regs ∧ s.zf = image.zf ∧ s.sf = image.sf ∧
      s.reservedFlags = 0 ∧ s.pc = 0 ∧ s.cyc = 0 ∧ (stream = [] → s.status = .ended) ∧
      (stream ≠ [] → s.status = .running) ∧
      (∀ c ∈ image.cells, c.1 < cfg.memSize → Memory.read s.mem c.1 = c.2) ∧
      ∀ a, (∀ c ∈ image.cells, c.1 ≠ a) → Memory.read s.mem a = 0

/-! ### The cycle-cost estimator (spec/70_reset_and_hazards.md) -/

/-- R213: the estimator computes a cost for every move and every add, the triple of its base, effective-address and penalty
costs, and NotComputed for sub, cmp and every jump or loop form. -/
def Obligations.CostScope : Prop :=
  ∀ (s : State) (i : Instr),
    ((i.record 0).op = .mov ∨ (i.record 0).op = .arith .add →
      ∃ b, baseCost s.cfg i = some b ∧ cost s i = .computed b (eaCost s.cfg i) (penaltyCost s i)) ∧
    ((i.record 0).op = .arith .sub ∨ (i.record 0).op = .arith .cmp ∨ (∃ j, (i.record 0).op = .jump j) →
      cost s i = .notComputed)

/-- The base and effective-address costs of every form under the default tables. Their numbers are the spec's own choice
(D26), as is the zero cost of an accumulator form's address (D22). An instruction with a memory operand has the cost of its
mode, and one without has none. -/
def Obligations.DefaultCosts : Prop :=
  (∀ w d r i, baseCost Config.default (.movRmR w (.reg d) r) = some 2 ∧
    baseCost Config.default (.movRRm w d (.reg r)) = some 2 ∧
    baseCost Config.default (.movRmImm w (.reg d) i) = some 4 ∧ baseCost Config.default (.movRImm w d i) = some 4 ∧
    baseCost Config.default (.addRmR w (.reg d) r) = some 3 ∧ baseCost Config.default (.addRRm w d (.reg r)) = some 3 ∧
    baseCost Config.default (.addAccImm w i) = some 4 ∧
    ∀ form ∈ [Instr.addRmImm, Instr.addRmImmR1, Instr.addRmImmR2, Instr.addRmImmR3, Instr.addRmImmR4,
      Instr.addRmImmR6], baseCost Config.default (form w (.reg d) i) = some 4) ∧
  (∀ w m r i a, baseCost Config.default (.movRmR w (.mem m) r) = some 9 ∧
    baseCost Config.default (.movRRm w r (.mem m)) = some 8 ∧
    baseCost Config.default (.movRmImm w (.mem m) i) = some 10 ∧
    baseCost Config.default (.movAccMem w a) = some 10 ∧ baseCost Config.default (.movMemAcc w a) = some 10 ∧
    baseCost Config.default (.addRmR w (.mem m) r) = some 16 ∧ baseCost Config.default (.addRRm w r (.mem m)) = some 9 ∧
    (∀ form ∈ [Instr.addRmImm, Instr.addRmImmR1, Instr.addRmImmR2, Instr.addRmImmR3, Instr.addRmImmR4,
      Instr.addRmImmR6], baseCost Config.default (form w (.mem m) i) = some 17) ∧
    eaCost Config.default (.movAccMem w a) = 0 ∧ eaCost Config.default (.movMemAcc w a) = 0 ∧
    eaCost Config.default (.movRmR w (.mem m) r) = eaModeCost Config.default m ∧
    eaCost Config.default (.movRRm w r (.mem m)) = eaModeCost Config.default m ∧
    eaCost Config.default (.movRmImm w (.mem m) i) = eaModeCost Config.default m ∧
    eaCost Config.default (.addRmR w (.mem m) r) = eaModeCost Config.default m ∧
    eaCost Config.default (.addRRm w r (.mem m)) = eaModeCost Config.default m ∧
    ∀ form ∈ [Instr.addRmImm, Instr.addRmImmR1, Instr.addRmImmR2, Instr.addRmImmR3, Instr.addRmImmR4,
      Instr.addRmImmR6], eaCost Config.default (form w (.mem m) i) = eaModeCost Config.default m) ∧
  (∀ i, (∀ m, ¬ HasAddress i m) → eaCost Config.default i = 0) ∧
  [EaBase.bxSi, .bxDi, .bpSi, .bpDi, .si, .di, .bx].map (fun b => eaModeCost Config.default (.base b)) =
    [7, 8, 8, 7, 5, 5, 5] ∧
  (∀ d, [EaBase.bxSi, .bxDi, .bpSi, .bpDi, .si, .di, .bp, .bx].map
    (fun b => eaModeCost Config.default (.disp8 b d)) = [11, 12, 12, 11, 9, 9, 9, 9]) ∧
  (∀ d, [EaBase.bxSi, .bxDi, .bpSi, .bpDi, .si, .di, .bp, .bx].map
    (fun b => eaModeCost Config.default (.disp16 b d)) = [11, 12, 12, 11, 9, 9, 9, 9]) ∧
  ∀ a, eaModeCost Config.default (.direct a) = 6

/-- R220: the estimator's table is chosen by the decoded mode, never by the displacement's value. -/
def Obligations.ModeChoosesCostTable : Prop :=
  ∀ c b d d', eaModeCost c (.disp8 b d) = eaEntry c.eaDisp b ∧ eaModeCost c (.disp16 b d') = eaEntry c.eaDisp b ∧
    eaModeCost c (.base b) = eaEntry c.eaNoDisp b

/-- The misalignment penalty: 4 for each word transfer when the resolved address is odd and the key holds, 0 otherwise, and
0 without a memory operand. The key and the transfer count are the spec's own choice (D23, D25). -/
def Obligations.MisalignmentPenalty : Prop :=
  (∀ (s : State) (i : Instr) (m : Ea), HasAddress i m →
    let transfers := if (i.record 0).op = .arith .add ∧ (i.record 0).dst = .ea m then 2 else 1
    let odd := (s.eaValue m).toNat % 2 = 1
    (s.cfg.penaltyKey = .dispSize → penaltyCost s i =
      if odd ∧ (RmOp.mem m).dispLength = 2 then 4 * transfers else 0) ∧
    (s.cfg.penaltyKey = .operandWidth → penaltyCost s i =
      if odd ∧ (i.record 0).w = .word then 4 * transfers else 0)) ∧
  ∀ (s : State) (i : Instr), (∀ m, ¬ HasAddress i m) → penaltyCost s i = 0

/-! ### The decoded record (spec/30_encoding.md section 1) -/

/-- The decoded record of each instruction: operation tag, operand slots, form, width flag, start and length. That the
record has the last four fields is the spec's own choice (D21), as is the accumulator's width (D10). -/
def Obligations.RecordFields : Prop :=
  (∀ r, (RmOp.reg r).operand = .reg r) ∧ (∀ m, (RmOp.mem m).operand = .ea m) ∧
  (∀ x ∈ [(Instr.movRmR, OpTag.mov, Form.MOV_RM_R), (.addRmR, .arith .add, .ADD_RM_R), (.subRmR, .arith .sub, .SUB_RM_R),
      (.cmpRmR, .arith .cmp, .CMP_RM_R)],
    ∀ w d r n, (x.1 w d r).record n = ⟨x.2.1, d.operand, some (.reg r), x.2.2, w, n, (x.1 w d r).length⟩) ∧
  (∀ x ∈ [(Instr.movRRm, OpTag.mov, Form.MOV_R_RM), (.addRRm, .arith .add, .ADD_R_RM), (.subRRm, .arith .sub, .SUB_R_RM),
      (.cmpRRm, .arith .cmp, .CMP_R_RM)],
    ∀ w r e n, (x.1 w r e).record n = ⟨x.2.1, .reg r, some e.operand, x.2.2, w, n, (x.1 w r e).length⟩) ∧
  (∀ x ∈ [(Instr.movRmImm, OpTag.mov, Form.MOV_RM_IMM), (.addRmImm, .arith .add, .ADD_RM_IMM),
      (.addRmImmR1, .arith .add, .ADD_RM_IMM_R1), (.addRmImmR2, .arith .add, .ADD_RM_IMM_R2),
      (.addRmImmR3, .arith .add, .ADD_RM_IMM_R3), (.addRmImmR4, .arith .add, .ADD_RM_IMM_R4),
      (.addRmImmR6, .arith .add, .ADD_RM_IMM_R6), (.subRmImm, .arith .sub, .SUB_RM_IMM),
      (.cmpRmImm, .arith .cmp, .CMP_RM_IMM)],
    ∀ w d v n, (x.1 w d v).record n = ⟨x.2.1, d.operand, some (.imm v), x.2.2, w, n, (x.1 w d v).length⟩) ∧
  (∀ w r v n, (Instr.movRImm w r v).record n =
    ⟨.mov, .reg r, some (.imm v), .MOV_R_IMM, w, n, (Instr.movRImm w r v).length⟩) ∧
  (∀ w a n, (Instr.movAccMem w a).record n = ⟨.mov, .acc w, some (.ea (.direct a)), .MOV_ACC_MEM, w, n, 3⟩) ∧
  (∀ w a n, (Instr.movMemAcc w a).record n = ⟨.mov, .ea (.direct a), some (.acc w), .MOV_MEM_ACC, w, n, 3⟩) ∧
  (∀ x ∈ [(Instr.addAccImm, ArithOp.add, Form.ADD_ACC_IMM), (.subAccImm, .sub, .SUB_ACC_IMM),
      (.cmpAccImm, .cmp, .CMP_ACC_IMM)],
    ∀ w v n, (x.1 w v).record n = ⟨.arith x.2.1, .acc w, some (.imm v), x.2.2, w, n, (x.1 w v).length⟩) ∧
  ∀ (op : JumpOp) (v : Byte) (n : Nat), (op.instr v).record n = ⟨.jump op, .rel v, none, .jump op, .byte, n, 2⟩

/-- The record of decoded bytes says what the bytes are: its form is the one row of the opcode table that they select, its
length is the bytes consumed, and its width flag is bit 0 of the opcode byte, bit 3 for a move of an immediate to a
register, and 0 for a jump or loop form. The opcode values and the field places are the spec's own choice (D2), as are
these fields of the record (D21). -/
def Obligations.RecordFollowsBytes : Prop :=
  ∀ (b : Byte) (bs : List Byte) (i : Instr) (rest : List Byte) (n : Nat), decode (b :: bs) = .ok (i, rest) →
    (∀ row ∈ opcodeTable, row.selects (b :: bs) ↔ row.form = (i.record n).form) ∧
    (∃ row ∈ opcodeTable, row.form = (i.record n).form) ∧
    (i.record n).start = n ∧ (i.record n).len + rest.length = bs.length + 1 ∧
    (i.record n).w = (match (i.record n).form with
      | .jump _ => .byte
      | .MOV_R_IMM => if b.getLsbD 3 then .word else .byte
      | _ => if b.getLsbD 0 then .word else .byte)
end

