-- ==== Sys2Proof/Laws/State.lean ====
section
/-! SUPPORT. One lemma per field per update of State, so that no proof unfolds a record update, and the fields that the
end of a step leaves alone. -/

namespace Sys2Proof.Machine

/-! ### `State.setPc` -/

@[simp] theorem State.setPc_cfg (s : State) (n : Nat) : (s.setPc n).cfg = s.cfg :=
  rfl

@[simp] theorem State.setPc_regs (s : State) (n : Nat) : (s.setPc n).regs = s.regs :=
  rfl

@[simp] theorem State.setPc_flags (s : State) (n : Nat) : (s.setPc n).flags = s.flags :=
  rfl

@[simp] theorem State.setPc_pc (s : State) (n : Nat) : (s.setPc n).pc = n :=
  rfl

@[simp] theorem State.setPc_stream (s : State) (n : Nat) : (s.setPc n).stream = s.stream :=
  rfl

@[simp] theorem State.setPc_mem (s : State) (n : Nat) : (s.setPc n).mem = s.mem :=
  rfl

@[simp] theorem State.setPc_status (s : State) (n : Nat) : (s.setPc n).status = s.status :=
  rfl

@[simp] theorem State.setPc_cyc (s : State) (n : Nat) : (s.setPc n).cyc = s.cyc :=
  rfl

@[simp] theorem State.setPc_out (s : State) (n : Nat) : (s.setPc n).out = s.out :=
  rfl

/-! ### `State.setMem` -/

@[simp] theorem State.setMem_cfg (s : State) (m : Memory) : (s.setMem m).cfg = s.cfg :=
  rfl

@[simp] theorem State.setMem_regs (s : State) (m : Memory) : (s.setMem m).regs = s.regs :=
  rfl

@[simp] theorem State.setMem_flags (s : State) (m : Memory) : (s.setMem m).flags = s.flags :=
  rfl

@[simp] theorem State.setMem_pc (s : State) (m : Memory) : (s.setMem m).pc = s.pc :=
  rfl

@[simp] theorem State.setMem_stream (s : State) (m : Memory) : (s.setMem m).stream = s.stream :=
  rfl

@[simp] theorem State.setMem_mem (s : State) (m : Memory) : (s.setMem m).mem = m :=
  rfl

@[simp] theorem State.setMem_status (s : State) (m : Memory) : (s.setMem m).status = s.status :=
  rfl

@[simp] theorem State.setMem_cyc (s : State) (m : Memory) : (s.setMem m).cyc = s.cyc :=
  rfl

@[simp] theorem State.setMem_out (s : State) (m : Memory) : (s.setMem m).out = s.out :=
  rfl

/-! ### `State.writeReg` -/

@[simp] theorem State.writeReg_cfg (s : State) (r : RegOp) (v : Word) : (s.writeReg r v).cfg = s.cfg :=
  rfl

@[simp] theorem State.writeReg_regs (s : State) (r : RegOp) (v : Word) : (s.writeReg r v).regs = s.regs.set r.slot (RegOp.merge r (s.regs.get r.slot) v) :=
  rfl

@[simp] theorem State.writeReg_flags (s : State) (r : RegOp) (v : Word) : (s.writeReg r v).flags = s.flags :=
  rfl

@[simp] theorem State.writeReg_pc (s : State) (r : RegOp) (v : Word) : (s.writeReg r v).pc = s.pc :=
  rfl

@[simp] theorem State.writeReg_stream (s : State) (r : RegOp) (v : Word) : (s.writeReg r v).stream = s.stream :=
  rfl

@[simp] theorem State.writeReg_mem (s : State) (r : RegOp) (v : Word) : (s.writeReg r v).mem = s.mem :=
  rfl

@[simp] theorem State.writeReg_status (s : State) (r : RegOp) (v : Word) : (s.writeReg r v).status = s.status :=
  rfl

@[simp] theorem State.writeReg_cyc (s : State) (r : RegOp) (v : Word) : (s.writeReg r v).cyc = s.cyc :=
  rfl

@[simp] theorem State.writeReg_out (s : State) (r : RegOp) (v : Word) : (s.writeReg r v).out = s.out :=
  rfl

/-! ### `State.setFlags` -/

@[simp] theorem State.setFlags_cfg (s : State) (w : Width) (r : Word) : (s.setFlags w r).cfg = s.cfg :=
  rfl

@[simp] theorem State.setFlags_regs (s : State) (w : Width) (r : Word) : (s.setFlags w r).regs = s.regs :=
  rfl

@[simp] theorem State.setFlags_flags (s : State) (w : Width) (r : Word) : (s.setFlags w r).flags = putFlags s.flags (zeroOf s.cfg.narrowFlags w r) (signOf s.cfg.narrowFlags w r) :=
  rfl

@[simp] theorem State.setFlags_pc (s : State) (w : Width) (r : Word) : (s.setFlags w r).pc = s.pc :=
  rfl

@[simp] theorem State.setFlags_stream (s : State) (w : Width) (r : Word) : (s.setFlags w r).stream = s.stream :=
  rfl

@[simp] theorem State.setFlags_mem (s : State) (w : Width) (r : Word) : (s.setFlags w r).mem = s.mem :=
  rfl

@[simp] theorem State.setFlags_status (s : State) (w : Width) (r : Word) : (s.setFlags w r).status = s.status :=
  rfl

@[simp] theorem State.setFlags_cyc (s : State) (w : Width) (r : Word) : (s.setFlags w r).cyc = s.cyc :=
  rfl

@[simp] theorem State.setFlags_out (s : State) (w : Width) (r : Word) : (s.setFlags w r).out = s.out :=
  rfl

/-! ### `State.takeFault` -/

@[simp] theorem State.takeFault_cfg (s : State) (f : Fault) : (s.takeFault f).cfg = s.cfg :=
  rfl

@[simp] theorem State.takeFault_regs (s : State) (f : Fault) : (s.takeFault f).regs = s.regs :=
  rfl

@[simp] theorem State.takeFault_flags (s : State) (f : Fault) : (s.takeFault f).flags = s.flags :=
  rfl

@[simp] theorem State.takeFault_pc (s : State) (f : Fault) : (s.takeFault f).pc = s.pc :=
  rfl

@[simp] theorem State.takeFault_stream (s : State) (f : Fault) : (s.takeFault f).stream = s.stream :=
  rfl

@[simp] theorem State.takeFault_mem (s : State) (f : Fault) : (s.takeFault f).mem = s.mem :=
  rfl

@[simp] theorem State.takeFault_status (s : State) (f : Fault) : (s.takeFault f).status = .faulted f s.pc :=
  rfl

@[simp] theorem State.takeFault_cyc (s : State) (f : Fault) : (s.takeFault f).cyc = s.cyc :=
  rfl

@[simp] theorem State.takeFault_out (s : State) (f : Fault) : (s.takeFault f).out = none :=
  rfl

/-! ### `State.endRun` -/

@[simp] theorem State.endRun_cfg (s : State) : (s.endRun).cfg = s.cfg :=
  rfl

@[simp] theorem State.endRun_regs (s : State) : (s.endRun).regs = s.regs :=
  rfl

@[simp] theorem State.endRun_flags (s : State) : (s.endRun).flags = s.flags :=
  rfl

@[simp] theorem State.endRun_pc (s : State) : (s.endRun).pc = s.pc :=
  rfl

@[simp] theorem State.endRun_stream (s : State) : (s.endRun).stream = s.stream :=
  rfl

@[simp] theorem State.endRun_mem (s : State) : (s.endRun).mem = s.mem :=
  rfl

@[simp] theorem State.endRun_status (s : State) : (s.endRun).status = .ended :=
  rfl

@[simp] theorem State.endRun_cyc (s : State) : (s.endRun).cyc = s.cyc :=
  rfl

@[simp] theorem State.endRun_out (s : State) : (s.endRun).out = none :=
  rfl

/-! ### `account` -/

@[simp] theorem account_cfg (i : Instr) (s t : State) : (account i s t).cfg = t.cfg := by
  unfold account
  split <;> rfl

@[simp] theorem account_regs (i : Instr) (s t : State) : (account i s t).regs = t.regs := by
  unfold account
  split <;> rfl

@[simp] theorem account_flags (i : Instr) (s t : State) : (account i s t).flags = t.flags := by
  unfold account
  split <;> rfl

@[simp] theorem account_pc (i : Instr) (s t : State) : (account i s t).pc = t.pc := by
  unfold account
  split <;> rfl

@[simp] theorem account_stream (i : Instr) (s t : State) : (account i s t).stream = t.stream := by
  unfold account
  split <;> rfl

@[simp] theorem account_mem (i : Instr) (s t : State) : (account i s t).mem = t.mem := by
  unfold account
  split <;> rfl

@[simp] theorem account_status (i : Instr) (s t : State) : (account i s t).status = t.status := by
  unfold account
  split <;> rfl

/-- `CYC` after a step: the total is added when the estimator is on (R222). -/
theorem account_cyc (i : Instr) (s t : State) :
    (account i s t).cyc = if s.cfg.estimatorOn then t.cyc + (cost (costState s t) i).total else t.cyc := by
  unfold account
  split <;> rfl

/-- The emission of a completed instruction (R8, R203). -/
theorem account_out (i : Instr) (s t : State) :
    (account i s t).out = some ⟨i.record s.pc,
      if s.cfg.estimatorOn then some (cost (costState s t) i, (account i s t).cyc) else none⟩ := by
  rw [account_cyc]
  unfold account
  split <;> rfl

end Sys2Proof.Machine
end

