-- ==== Sys2Proof/Laws/Registers.lean ====
section
/-! SUPPORT. Laws of the register file and of the flags byte (spec/10_state.md R22, R23, R25 to R27). -/

namespace Sys2Proof.Machine

@[simp] theorem RegFile.get_set_same (r : RegFile) (i : Slot) (v : Word) : (r.set i v).get i = v := by
  cases i <;> rfl

theorem RegFile.get_set_other (r : RegFile) {i j : Slot} (v : Word) (h : j ≠ i) : (r.set i v).get j = r.get j := by
  cases i <;> cases j <;> first | rfl | exact absurd rfl h

@[simp] theorem loByte_toNat (v : Word) : (loByte v).toNat = v.toNat % 256 := by
  simp [loByte, BitVec.extractLsb'_toNat]

@[simp] theorem hiByte_toNat (v : Word) : (hiByte v).toNat = v.toNat / 256 := by
  have := v.isLt
  simp [hiByte, BitVec.extractLsb'_toNat, Nat.shiftRight_eq_div_pow]
  omega

/-- Two bytes side by side as a number. -/
theorem append_bytes_toNat (hi lo : Byte) : (hi ++ lo : Word).toNat = 256 * hi.toNat + lo.toNat := by
  have := lo.isLt
  rw [BitVec.toNat_append, Nat.shiftLeft_eq, Nat.mul_comm, ← Nat.two_pow_add_eq_or_of_lt this]

/-- `merge` computes the spec's new slot value (R23). -/
theorem RegOp.merge_toNat (r : RegOp) (old v : Word) :
    (RegOp.merge r old v).toNat = mergedValue r old.toNat v.toNat := by
  have := v.isLt
  have := old.isLt
  obtain ⟨i, half, w⟩ := r
  cases w
  · cases half <;> simp only [RegOp.merge, mergedValue, append_bytes_toNat, hiByte_toNat, loByte_toNat] <;> omega
  · simp only [RegOp.merge, mergedValue]
    omega

/-- `readReg` reads the spec's number (R22). -/
theorem State.readReg_toNat (s : State) (r : RegOp) : (s.readReg r).toNat = regValue s r := by
  have := (s.regs.get r.slot).isLt
  obtain ⟨i, half, w⟩ := r
  cases w
  · cases half <;>
      simp only [State.readReg, regValue, BitVec.toNat_setWidth, hiByte_toNat, loByte_toNat] at * <;> omega
  · rfl

/-- Everything a register write does (R23). -/
theorem State.writeReg_written (s : State) (r : RegOp) (v : Word) : RegisterWritten r v.toNat s (s.writeReg r v) := by
  refine ⟨?_, fun q h => ?_⟩
  · rw [State.writeReg_regs, RegFile.get_set_same, RegOp.merge_toNat]
  · rw [State.writeReg_regs, RegFile.get_set_other _ _ h]

theorem putFlags_toNat (old : Byte) (z n : Bool) :
    (putFlags old z n).toNat = 128 * n.toNat + 64 * z.toNat + old.toNat % 64 := by
  have h : (old.extractLsb' 0 6).toNat = old.toNat % 64 := by simp
  have := (old.extractLsb' 0 6).isLt
  unfold putFlags
  rw [BitVec.toNat_append, Nat.shiftLeft_eq, Nat.mul_comm, ← Nat.two_pow_add_eq_or_of_lt this, h]
  cases n <;> cases z <;> rfl

theorem putFlags_zero (old : Byte) (z n : Bool) : (putFlags old z n).getLsbD 6 = z := by
  simp only [putFlags, BitVec.getLsbD_append]
  cases n <;> cases z <;> rfl

theorem putFlags_sign (old : Byte) (z n : Bool) : (putFlags old z n).getLsbD 7 = n := by
  simp only [putFlags, BitVec.getLsbD_append]
  cases n <;> cases z <;> rfl

@[simp] theorem putFlags_reserved (old : Byte) (z n : Bool) :
    (putFlags old z n).extractLsb' 0 6 = old.extractLsb' 0 6 := by
  apply BitVec.eq_of_toNat_eq
  rw [BitVec.extractLsb'_toNat, BitVec.extractLsb'_toNat, putFlags_toNat]
  simp
  omega

@[simp] theorem State.setFlags_zf (s : State) (w : Width) (r : Word) :
    (s.setFlags w r).zf = zeroOf s.cfg.narrowFlags w r :=
  putFlags_zero _ _ _

@[simp] theorem State.setFlags_sf (s : State) (w : Width) (r : Word) :
    (s.setFlags w r).sf = signOf s.cfg.narrowFlags w r :=
  putFlags_sign _ _ _

@[simp] theorem State.setFlags_reserved (s : State) (w : Width) (r : Word) :
    (s.setFlags w r).reservedFlags = s.reservedFlags :=
  putFlags_reserved _ _ _

end Sys2Proof.Machine
end

