-- ==== Sys2Proof/Laws/Memory.lean ====
section
/-! SUPPORT. Laws of the data memory: read after write, and that every memory operation keeps the canonical form
(spec/20_memory.md R46 to R48, R54). -/

namespace Sys2Proof.Machine

/-- A write leaves every other byte alone. -/
theorem Memory.read_write_other (m : Memory) {a b : Nat} (v : Byte) (h : b ≠ a) :
    Memory.read (Memory.write m a v) b = Memory.read m b := by
  induction m with
  | nil =>
    unfold Memory.write
    split
    · rfl
    · simp [Memory.read, Ne.symm h]
  | cons c m ih =>
    obtain ⟨k, u⟩ := c
    unfold Memory.write
    split
    · simp only [Memory.read, ih]
    · split
      · rename_i _ hk
        split <;> simp [Memory.read, hk, Ne.symm h]
      · split
        · rfl
        · simp [Memory.read, Ne.symm h]

/-- An address below every listed one reads as unlisted. -/
theorem Memory.read_below (m : Memory) (a : Nat) (h : ∀ c ∈ m, a < c.1) : Memory.read m a = Memory.unlisted := by
  induction m with
  | nil => rfl
  | cons c m ih =>
    have hc := h c (by simp)
    rw [Memory.read, if_neg (by omega)]
    exact ih fun d hd => h d (by simp [hd])

/-- A byte reads back as it was written. -/
theorem Memory.read_write_same (m : Memory) (a : Nat) (v : Byte) (h : Memory.wf m) :
    Memory.read (Memory.write m a v) a = v := by
  induction m with
  | nil =>
    unfold Memory.write
    split
    · simp [Memory.read, *]
    · simp [Memory.read]
  | cons c m ih =>
    obtain ⟨k, u⟩ := c
    obtain ⟨hs, hn⟩ := h
    rw [List.pairwise_cons] at hs
    have ih := ih ⟨hs.2, fun d hd => hn d (by simp [hd])⟩
    unfold Memory.write
    split
    · rw [Memory.read, if_neg (by omega), ih]
    · split
      · split
        · rename_i hk hv
          rw [hv, Memory.read_below m a (fun d hd => hk ▸ hs.1 d hd)]
        · simp [Memory.read]
      · split
        · rename_i h1 h2 hv
          rw [hv, Memory.read, if_neg (by omega)]
          refine Memory.read_below m a fun d hd => ?_
          have := hs.1 d hd
          simp only at this
          omega
        · simp [Memory.read]

/-- The addresses a write leaves listed are those listed before and the one written. -/
theorem Memory.mem_write {m : Memory} {a : Nat} {v : Byte} {c : Host.Cell} (h : c ∈ Memory.write m a v) :
    c ∈ m ∨ c = (a, v) := by
  induction m with
  | nil =>
    unfold Memory.write at h
    split at h <;> simp_all
  | cons d m ih =>
    unfold Memory.write at h
    split at h
    · rcases List.mem_cons.mp h with h | h
      · simp [h]
      · rcases ih h with h | h <;> simp [h]
    · split at h <;> split at h <;> simp_all <;> tauto

/-- A write keeps the canonical form. -/
theorem Memory.write_wf (m : Memory) (a : Nat) (v : Byte) (h : Memory.wf m) : Memory.wf (Memory.write m a v) := by
  induction m with
  | nil =>
    unfold Memory.write
    split
    · exact h
    · exact ⟨by simp, by simpa⟩
  | cons c m ih =>
    obtain ⟨hs, hn⟩ := h
    rw [List.pairwise_cons] at hs
    have hm : Memory.wf m := ⟨hs.2, fun d hd => hn d (by simp [hd])⟩
    have hc : c.2 ≠ Memory.unlisted := hn c (by simp)
    obtain ⟨k, u⟩ := c
    unfold Memory.write
    split
    · refine ⟨List.pairwise_cons.mpr ⟨fun d hd => ?_, (ih hm).1⟩, fun d hd => ?_⟩
      · rcases Memory.mem_write hd with hd | rfl
        · exact hs.1 d hd
        · assumption
      · rcases List.mem_cons.mp hd with rfl | hd
        · exact hc
        · exact (ih hm).2 d hd
    · split
      · rename_i _ hk
        split
        · exact hm
        · rename_i hv
          refine ⟨List.pairwise_cons.mpr ⟨fun d hd => hk ▸ hs.1 d hd, hs.2⟩, fun d hd => ?_⟩
          rcases List.mem_cons.mp hd with rfl | hd
          · exact hv
          · exact hm.2 d hd
      · split
        · exact ⟨List.pairwise_cons.mpr hs, hn⟩
        · rename_i hv
          refine ⟨List.pairwise_cons.mpr ⟨fun d hd => ?_, List.pairwise_cons.mpr hs⟩, fun d hd => ?_⟩
          · rcases List.mem_cons.mp hd with rfl | hd
            · simp only
              omega
            · have := hs.1 d hd
              simp only at this ⊢
              omega
          · rcases List.mem_cons.mp hd with rfl | hd
            · exact hv
            · exact hn d hd

/-- A store keeps the canonical form. -/
theorem Memory.store_wf (m : Memory) (a : Nat) (w : Width) (v : Word) (h : Memory.wf m) :
    Memory.wf (Memory.store m a w v) := by
  cases w
  · exact Memory.write_wf m _ _ h
  · exact Memory.write_wf _ _ _ (Memory.write_wf m _ _ h)

/-- The addresses a store leaves listed are those listed before and those it writes. -/
theorem Memory.mem_store {m : Memory} {a : Nat} {w : Width} {v : Word} {c : Host.Cell}
    (h : c ∈ Memory.store m a w v) : c ∈ m ∨ c.1 < a + w.bytes := by
  cases w
  · rcases Memory.mem_write h with h | rfl
    · exact .inl h
    · exact .inr (by simp [Width.bytes])
  · rcases Memory.mem_write h with h | rfl
    · rcases Memory.mem_write h with h | rfl
      · exact .inl h
      · exact .inr (by simp [Width.bytes])
    · exact .inr (by simp [Width.bytes])

/-- A store leaves every byte outside it alone. -/
theorem Memory.read_store_outside (m : Memory) (a : Nat) (w : Width) (v : Word) {b : Nat}
    (h : b < a ∨ a + w.bytes ≤ b) : Memory.read (Memory.store m a w v) b = Memory.read m b := by
  cases w <;> simp only [Width.bytes] at h <;> unfold Memory.store
  · exact Memory.read_write_other m _ (by omega)
  · rw [Memory.read_write_other _ _ (by omega), Memory.read_write_other _ _ (by omega)]

/-- Everything a store does to a memory in canonical form (R47, R48). -/
theorem Memory.store_stored (s : State) (a : Nat) (w : Width) (v : Word) (h : Memory.wf s.mem) :
    BytesStored a w v.toNat s (s.setMem (Memory.store s.mem a w v)) := by
  have := v.isLt
  refine ⟨?_, fun hw => ?_, fun b hb => Memory.read_store_outside s.mem a w v hb⟩
  · rw [State.setMem_mem, ← loByte_toNat]
    cases w <;> unfold Memory.store
    · rw [Memory.read_write_same _ _ _ h]
    · rw [Memory.read_write_other _ _ (by omega), Memory.read_write_same _ _ _ h]
  · subst hw
    simp only [State.setMem_mem, Memory.store]
    rw [Memory.read_write_same _ _ _ (Memory.write_wf _ _ _ h), hiByte_toNat]
    omega

end Sys2Proof.Machine
end

