-- ==== Sys2Proof/Laws/Operands.lean ====
section
/-! SUPPORT. Laws of memory access, immediates and operand read and write: when each completes, with what value, and all
it can change (spec/20_memory.md R43 to R47, spec/30_encoding.md R76, spec/40_mov.md R100, R101). -/

namespace Sys2Proof.Machine

/-! ### The cursor plays no part in operand access -/

@[simp] theorem State.readReg_setPc (s : State) (n : Nat) (r : RegOp) : (s.setPc n).readReg r = s.readReg r :=
  rfl

@[simp] theorem State.eaValue_setPc (s : State) (n : Nat) (m : Ea) : (s.setPc n).eaValue m = s.eaValue m := by
  cases m <;> rfl

@[simp] theorem State.immValue_setPc (s : State) (n : Nat) (w : Width) (i : Imm) :
    (s.setPc n).immValue w i = s.immValue w i := by
  cases i <;> rfl

@[simp] theorem State.zf_setPc (s : State) (n : Nat) : (s.setPc n).zf = s.zf :=
  rfl

@[simp] theorem State.sf_setPc (s : State) (n : Nat) : (s.setPc n).sf = s.sf :=
  rfl

@[simp] theorem State.reservedFlags_setPc (s : State) (n : Nat) : (s.setPc n).reservedFlags = s.reservedFlags :=
  rfl

/-! ### Memory access -/

theorem State.inBounds_iff (s : State) (a : Nat) (w : Width) :
    s.inBounds a w = true ↔ a + w.bytes ≤ s.cfg.memSize := by
  simp [State.inBounds]

/-- A read inside the memory completes with the little-endian value (R46). -/
theorem State.memRead_value (s : State) {a : Nat} {w : Width} (h : a + w.bytes ≤ s.cfg.memSize) :
    ∃ v, s.memRead a w = .ok v ∧ v.toNat = memValue s a w := by
  have hb := (s.inBounds_iff a w).mpr h
  refine ⟨_, if_pos hb, ?_⟩
  cases w
  · have := (Memory.read s.mem a).isLt
    simp only [BitVec.toNat_setWidth, memValue]
    omega
  · simp only [append_bytes_toNat, memValue]
    omega

/-- A read outside the memory raises MemOutOfBounds (R46). -/
theorem State.memRead_outside (s : State) {a : Nat} {w : Width} (h : s.cfg.memSize < a + w.bytes) :
    s.memRead a w = .error (.memOutOfBounds a w.bytes) := by
  refine if_neg fun hb => ?_
  have := (s.inBounds_iff a w).mp hb
  omega

/-- A write inside the memory stores and completes (R47). -/
theorem State.memWrite_inside (s : State) {a : Nat} {w : Width} (v : Word) (h : a + w.bytes ≤ s.cfg.memSize) :
    s.memWrite a w v = .ok (s.setMem (Memory.store s.mem a w v)) :=
  if_pos ((s.inBounds_iff a w).mpr h)

/-- A write outside the memory raises MemOutOfBounds and writes nothing (R47). -/
theorem State.memWrite_outside (s : State) {a : Nat} {w : Width} (v : Word) (h : s.cfg.memSize < a + w.bytes) :
    s.memWrite a w v = .error (.memOutOfBounds a w.bytes) := by
  refine if_neg fun hb => ?_
  have := (s.inBounds_iff a w).mp hb
  omega

/-- All a completed write can do. -/
theorem State.memWrite_ok {s t : State} {a : Nat} {w : Width} {v : Word} (h : s.memWrite a w v = .ok t) :
    a + w.bytes ≤ s.cfg.memSize ∧ t = s.setMem (Memory.store s.mem a w v) := by
  by_cases hb : a + w.bytes ≤ s.cfg.memSize
  · rw [State.memWrite_inside s v hb] at h
    exact ⟨hb, (Except.ok.inj h).symm⟩
  · rw [State.memWrite_outside s v (by omega)] at h
    cases h

/-! ### Immediates -/

/-- `immValue` is the spec's number (R76). -/
theorem State.immValue_toNat (s : State) (w : Width) (i : Imm) : (s.immValue w i).toNat = immNumber s w i := by
  cases i with
  | imm16 v => rfl
  | imm8 v =>
    have := v.isLt
    have h16 : (v.setWidth 16).toNat = v.toNat := by
      rw [BitVec.toNat_setWidth]
      omega
    cases w with
    | byte => simp [State.immValue, immNumber, h16]
    | word =>
      simp only [State.immValue, immNumber]
      cases s.cfg.imm8Ext with
      | zero => simp [h16]
      | sign =>
        simp only [BitVec.toNat_signExtend, h16, BitVec.msb_eq_decide]
        by_cases h : 128 ≤ v.toNat <;> simp [h]

/-! ### Operands -/

/-- An accessible register or memory operand reads as the spec's number (R100). -/
theorem State.readLoc_rm (s : State) (w : Width) (e : RmOp) (h : RmInBounds s w e) :
    ∃ v, s.readLoc w (rmLoc e) = .ok v ∧ v.toNat = rmValue s w e := by
  cases e with
  | reg r => exact ⟨_, rfl, s.readReg_toNat r⟩
  | mem m => exact s.memRead_value h

/-- All a completed operand write can do (R101). -/
theorem State.writeLoc_ok {s t : State} {w : Width} {l : Loc} {v : Word} (h : s.writeLoc w l v = .ok t) :
    (∃ r, l = .reg r ∧ t = s.writeReg r v) ∨ (∃ u, l = .acc u ∧ t = s.writeReg (accReg u) v) ∨
      ∃ m, l = .ea m ∧ (s.eaValue m).toNat + w.bytes ≤ s.cfg.memSize ∧
        t = s.setMem (Memory.store s.mem (s.eaValue m).toNat w v) := by
  cases l with
  | reg r => exact .inl ⟨r, rfl, (Except.ok.inj h).symm⟩
  | acc u => exact .inr (.inl ⟨u, rfl, (Except.ok.inj h).symm⟩)
  | ea m => exact .inr (.inr ⟨m, rfl, State.memWrite_ok h⟩)

end Sys2Proof.Machine
end

