-- ==== Sys2Proof/Laws/Arms.lean ====
section
/-! SUPPORT. What `exec` runs for each constructor: its shared body (spec/40_mov.md, spec/41_arith.md,
spec/42_control.md). -/

namespace Sys2Proof.Machine

theorem exec_movRmR (w : Width) (dst : RmOp) (src : RegOp) (s : State) :
    exec (.movRmR w dst src) s =
      s.execute (.movRmR w dst src) (move w (rmLoc dst) (.loc (.reg src))) :=
  rfl

theorem exec_movRRm (w : Width) (dst : RegOp) (src : RmOp) (s : State) :
    exec (.movRRm w dst src) s =
      s.execute (.movRRm w dst src) (move w (.reg dst) (.loc (rmLoc src))) :=
  rfl

theorem exec_movRmImm (w : Width) (dst : RmOp) (imm : Imm) (s : State) :
    exec (.movRmImm w dst imm) s =
      s.execute (.movRmImm w dst imm) (move w (rmLoc dst) (.imm imm)) :=
  rfl

theorem exec_movRImm (w : Width) (dst : RegOp) (imm : Imm) (s : State) :
    exec (.movRImm w dst imm) s =
      s.execute (.movRImm w dst imm) (move w (.reg dst) (.imm imm)) :=
  rfl

theorem exec_movAccMem (w : Width) (addr : Word) (s : State) :
    exec (.movAccMem w addr) s =
      s.execute (.movAccMem w addr) (move w (.acc w) (.loc (.ea (.direct addr)))) :=
  rfl

theorem exec_movMemAcc (w : Width) (addr : Word) (s : State) :
    exec (.movMemAcc w addr) s =
      s.execute (.movMemAcc w addr) (move w (.ea (.direct addr)) (.loc (.acc w))) :=
  rfl

theorem exec_addRmR (w : Width) (dst : RmOp) (src : RegOp) (s : State) :
    exec (.addRmR w dst src) s =
      s.execute (.addRmR w dst src) (arith .add (Instr.opcode (.addRmR w dst src)) w (rmLoc dst) (.loc (.reg src))) :=
  rfl

theorem exec_addRRm (w : Width) (dst : RegOp) (src : RmOp) (s : State) :
    exec (.addRRm w dst src) s =
      s.execute (.addRRm w dst src) (arith .add (Instr.opcode (.addRRm w dst src)) w (.reg dst) (.loc (rmLoc src))) :=
  rfl

theorem exec_addRmImm (w : Width) (dst : RmOp) (imm : Imm) (s : State) :
    exec (.addRmImm w dst imm) s =
      s.execute (.addRmImm w dst imm) (arith .add (Instr.opcode (.addRmImm w dst imm)) w (rmLoc dst) (.imm imm)) :=
  rfl

theorem exec_addRmImmR1 (w : Width) (dst : RmOp) (imm : Imm) (s : State) :
    exec (.addRmImmR1 w dst imm) s =
      s.execute (.addRmImmR1 w dst imm) (arith .add (Instr.opcode (.addRmImmR1 w dst imm)) w (rmLoc dst) (.imm imm)) :=
  rfl

theorem exec_addRmImmR2 (w : Width) (dst : RmOp) (imm : Imm) (s : State) :
    exec (.addRmImmR2 w dst imm) s =
      s.execute (.addRmImmR2 w dst imm) (arith .add (Instr.opcode (.addRmImmR2 w dst imm)) w (rmLoc dst) (.imm imm)) :=
  rfl

theorem exec_addRmImmR3 (w : Width) (dst : RmOp) (imm : Imm) (s : State) :
    exec (.addRmImmR3 w dst imm) s =
      s.execute (.addRmImmR3 w dst imm) (arith .add (Instr.opcode (.addRmImmR3 w dst imm)) w (rmLoc dst) (.imm imm)) :=
  rfl

theorem exec_addRmImmR4 (w : Width) (dst : RmOp) (imm : Imm) (s : State) :
    exec (.addRmImmR4 w dst imm) s =
      s.execute (.addRmImmR4 w dst imm) (arith .add (Instr.opcode (.addRmImmR4 w dst imm)) w (rmLoc dst) (.imm imm)) :=
  rfl

theorem exec_addRmImmR6 (w : Width) (dst : RmOp) (imm : Imm) (s : State) :
    exec (.addRmImmR6 w dst imm) s =
      s.execute (.addRmImmR6 w dst imm) (arith .add (Instr.opcode (.addRmImmR6 w dst imm)) w (rmLoc dst) (.imm imm)) :=
  rfl

theorem exec_addAccImm (w : Width) (imm : Imm) (s : State) :
    exec (.addAccImm w imm) s =
      s.execute (.addAccImm w imm) (arith .add (Instr.opcode (.addAccImm w imm)) w (.acc w) (.imm imm)) :=
  rfl

theorem exec_subRmR (w : Width) (dst : RmOp) (src : RegOp) (s : State) :
    exec (.subRmR w dst src) s =
      s.execute (.subRmR w dst src) (arith .sub (Instr.opcode (.subRmR w dst src)) w (rmLoc dst) (.loc (.reg src))) :=
  rfl

theorem exec_subRRm (w : Width) (dst : RegOp) (src : RmOp) (s : State) :
    exec (.subRRm w dst src) s =
      s.execute (.subRRm w dst src) (arith .sub (Instr.opcode (.subRRm w dst src)) w (.reg dst) (.loc (rmLoc src))) :=
  rfl

theorem exec_subRmImm (w : Width) (dst : RmOp) (imm : Imm) (s : State) :
    exec (.subRmImm w dst imm) s =
      s.execute (.subRmImm w dst imm) (arith .sub (Instr.opcode (.subRmImm w dst imm)) w (rmLoc dst) (.imm imm)) :=
  rfl

theorem exec_subAccImm (w : Width) (imm : Imm) (s : State) :
    exec (.subAccImm w imm) s =
      s.execute (.subAccImm w imm) (arith .sub (Instr.opcode (.subAccImm w imm)) w (.acc w) (.imm imm)) :=
  rfl

theorem exec_cmpRmR (w : Width) (dst : RmOp) (src : RegOp) (s : State) :
    exec (.cmpRmR w dst src) s =
      s.execute (.cmpRmR w dst src) (arith .cmp (Instr.opcode (.cmpRmR w dst src)) w (rmLoc dst) (.loc (.reg src))) :=
  rfl

theorem exec_cmpRRm (w : Width) (dst : RegOp) (src : RmOp) (s : State) :
    exec (.cmpRRm w dst src) s =
      s.execute (.cmpRRm w dst src) (arith .cmp (Instr.opcode (.cmpRRm w dst src)) w (.reg dst) (.loc (rmLoc src))) :=
  rfl

theorem exec_cmpRmImm (w : Width) (dst : RmOp) (imm : Imm) (s : State) :
    exec (.cmpRmImm w dst imm) s =
      s.execute (.cmpRmImm w dst imm) (arith .cmp (Instr.opcode (.cmpRmImm w dst imm)) w (rmLoc dst) (.imm imm)) :=
  rfl

theorem exec_cmpAccImm (w : Width) (imm : Imm) (s : State) :
    exec (.cmpAccImm w imm) s =
      s.execute (.cmpAccImm w imm) (arith .cmp (Instr.opcode (.cmpAccImm w imm)) w (.acc w) (.imm imm)) :=
  rfl

theorem exec_jo (rel : Byte) (s : State) :
    exec (.jo rel) s =
      s.execute (.jo rel) (inactiveJump (Instr.opcode (.jo rel))) :=
  rfl

theorem exec_jno (rel : Byte) (s : State) :
    exec (.jno rel) s =
      s.execute (.jno rel) (inactiveJump (Instr.opcode (.jno rel))) :=
  rfl

theorem exec_jb (rel : Byte) (s : State) :
    exec (.jb rel) s =
      s.execute (.jb rel) (inactiveJump (Instr.opcode (.jb rel))) :=
  rfl

theorem exec_jnb (rel : Byte) (s : State) :
    exec (.jnb rel) s =
      s.execute (.jnb rel) (inactiveJump (Instr.opcode (.jnb rel))) :=
  rfl

theorem exec_je (rel : Byte) (s : State) :
    exec (.je rel) s =
      s.execute (.je rel) (inactiveJump (Instr.opcode (.je rel))) :=
  rfl

theorem exec_jnz (rel : Byte) (s : State) :
    exec (.jnz rel) s =
      s.execute (.jnz rel) (jumpIfNotZero rel) :=
  rfl

theorem exec_jbe (rel : Byte) (s : State) :
    exec (.jbe rel) s =
      s.execute (.jbe rel) (inactiveJump (Instr.opcode (.jbe rel))) :=
  rfl

theorem exec_ja (rel : Byte) (s : State) :
    exec (.ja rel) s =
      s.execute (.ja rel) (inactiveJump (Instr.opcode (.ja rel))) :=
  rfl

theorem exec_js (rel : Byte) (s : State) :
    exec (.js rel) s =
      s.execute (.js rel) (inactiveJump (Instr.opcode (.js rel))) :=
  rfl

theorem exec_jns (rel : Byte) (s : State) :
    exec (.jns rel) s =
      s.execute (.jns rel) (inactiveJump (Instr.opcode (.jns rel))) :=
  rfl

theorem exec_jp (rel : Byte) (s : State) :
    exec (.jp rel) s =
      s.execute (.jp rel) (inactiveJump (Instr.opcode (.jp rel))) :=
  rfl

theorem exec_jnp (rel : Byte) (s : State) :
    exec (.jnp rel) s =
      s.execute (.jnp rel) (inactiveJump (Instr.opcode (.jnp rel))) :=
  rfl

theorem exec_jl (rel : Byte) (s : State) :
    exec (.jl rel) s =
      s.execute (.jl rel) (inactiveJump (Instr.opcode (.jl rel))) :=
  rfl

theorem exec_jnl (rel : Byte) (s : State) :
    exec (.jnl rel) s =
      s.execute (.jnl rel) (inactiveJump (Instr.opcode (.jnl rel))) :=
  rfl

theorem exec_jle (rel : Byte) (s : State) :
    exec (.jle rel) s =
      s.execute (.jle rel) (inactiveJump (Instr.opcode (.jle rel))) :=
  rfl

theorem exec_jg (rel : Byte) (s : State) :
    exec (.jg rel) s =
      s.execute (.jg rel) (inactiveJump (Instr.opcode (.jg rel))) :=
  rfl

theorem exec_loopnz (rel : Byte) (s : State) :
    exec (.loopnz rel) s =
      s.execute (.loopnz rel) (inactiveJump (Instr.opcode (.loopnz rel))) :=
  rfl

theorem exec_loopz (rel : Byte) (s : State) :
    exec (.loopz rel) s =
      s.execute (.loopz rel) (inactiveJump (Instr.opcode (.loopz rel))) :=
  rfl

theorem exec_loop (rel : Byte) (s : State) :
    exec (.loop rel) s =
      s.execute (.loop rel) (inactiveJump (Instr.opcode (.loop rel))) :=
  rfl

theorem exec_jcxz (rel : Byte) (s : State) :
    exec (.jcxz rel) s =
      s.execute (.jcxz rel) (inactiveJump (Instr.opcode (.jcxz rel))) :=
  rfl

end Sys2Proof.Machine
end

