-- ==== Sys2Proof/Laws/Decode.lean ====
section
/-! SUPPORT. Laws of the parts of the decoder and the encoder: fields, selectors, stream access, the resolver and
immediates (spec/30_encoding.md R64 to R76). -/

namespace Sys2Proof

/-! ### Fields and selectors -/

@[simp] theorem modField_modeByte (mod : BitVec 2) (reg rm : BitVec 3) : modField (modeByte mod reg rm) = mod := by
  revert mod reg rm
  decide

@[simp] theorem regField_modeByte (mod : BitVec 2) (reg rm : BitVec 3) : regField (modeByte mod reg rm) = reg := by
  revert mod reg rm
  decide

@[simp] theorem rmField_modeByte (mod : BitVec 2) (reg rm : BitVec 3) : rmField (modeByte mod reg rm) = rm := by
  revert mod reg rm
  decide

/-- A mode byte is its three fields (R64). -/
theorem modeByte_fields (m : Byte) : modeByte (modField m) (regField m) (rmField m) = m := by
  revert m
  decide

@[simp] theorem Slot.ofCode_code (i : Slot) : Slot.ofCode i.code = i := by
  cases i <;> rfl

@[simp] theorem Slot.code_ofCode (c : BitVec 3) : (Slot.ofCode c).code = c := by
  revert c
  decide

@[simp] theorem EaBase.ofCode_code (b : EaBase) : EaBase.ofCode b.code = b := by
  cases b <;> rfl

@[simp] theorem EaBase.code_ofCode (c : BitVec 3) : (EaBase.ofCode c).code = c := by
  revert c
  decide

/-- A legal register operand is the one its own selector names (R65). -/
theorem regSel_code (w : Width) (r : RegOp) (h : r.wfAt w = true) : regSel r.code w = r := by
  obtain ⟨i, half, v⟩ := r
  cases w <;> cases v <;> cases half <;> cases i <;> first | rfl | exact absurd h (by decide)

/-- `RegSel` gives a legal register operand of the instruction's width (R21, R65). -/
theorem regSel_wf (c : BitVec 3) (w : Width) : (regSel c w).wfAt w = true := by
  revert c
  cases w <;> decide

@[simp] theorem regSel_code_eq (c : BitVec 3) (w : Width) : (regSel c w).code = c := by
  revert c
  cases w <;> decide

@[simp] theorem Width.ofBit_bit (w : Width) : Width.ofBit (w.bit.getLsbD 0) = w := by
  cases w <;> rfl

/-! ### Stream access -/

theorem append_wordBytes (v : Word) : (v.extractLsb' 8 8 ++ v.extractLsb' 0 8 : Word) = v := by
  apply BitVec.eq_of_getLsbD_eq
  intro i hi
  rw [BitVec.getLsbD_append]
  by_cases h : i < 8
  · simp [h]
  · have h8 : i - 8 < 8 := by omega
    have hs : 8 + (i - 8) = i := by omega
    simp [h, h8, hs]

theorem extract_lo (hi lo : Byte) : (hi ++ lo : Word).extractLsb' 0 8 = lo := by
  apply BitVec.eq_of_getLsbD_eq
  intro i h
  simp only [BitVec.getLsbD_extractLsb', BitVec.getLsbD_append, h, Nat.zero_add, if_true, decide_true, Bool.true_and]

theorem extract_hi (hi lo : Byte) : (hi ++ lo : Word).extractLsb' 8 8 = hi := by
  apply BitVec.eq_of_getLsbD_eq
  intro i h
  have h8 : ¬ 8 + i < 8 := by omega
  simp only [BitVec.getLsbD_extractLsb', BitVec.getLsbD_append, h, h8, if_false, decide_true, Bool.true_and,
    Nat.add_sub_cancel_left]

/-- The two bytes of a word, low byte first (R74). -/
theorem wordBytes_append (hi lo : Byte) : wordBytes (hi ++ lo) = [lo, hi] := by
  rw [wordBytes, extract_lo, extract_hi]

@[simp] theorem fetch16_wordBytes (v : Word) (rest : List Byte) : fetch16 (wordBytes v ++ rest) = some (v, rest) := by
  simp [wordBytes, fetch16, append_wordBytes]

/-- What `Fetch8` consumes. -/
theorem fetch8_some {bs rest : List Byte} {b : Byte} (h : fetch8 bs = some (b, rest)) : bs = b :: rest := by
  cases bs with
  | nil => cases h
  | cons c bs =>
    cases h
    rfl

/-- What `Fetch16` consumes: the word's bytes, low byte first (R74). -/
theorem fetch16_some {bs rest : List Byte} {v : Word} (h : fetch16 bs = some (v, rest)) :
    bs = wordBytes v ++ rest := by
  match bs, h with
  | lo :: hi :: bs, h =>
    cases h
    simp [wordBytes_append]

/-! ### The resolver -/

/-- The resolver reads back an encoded operand (R66 to R71). -/
theorem resolve_encode (w : Width) (e : RmOp) (rest : List Byte) (h : e.wfAt w = true) :
    resolve e.mod e.rm w (e.dispBytes ++ rest) = some (e, rest) := by
  match e, h with
  | .reg r, h =>
    have hr : regSel r.code w = r := regSel_code w r h
    simp [resolve, RmOp.mod, RmOp.rm, RmOp.dispBytes, hr]
  | .mem (.base b), h =>
    cases b
    case bp => cases h
    all_goals rfl
  | .mem (.direct a), _ => simp [resolve, RmOp.mod, RmOp.rm, RmOp.dispBytes]
  | .mem (.disp8 b d), _ => simp [resolve, RmOp.mod, RmOp.rm, RmOp.dispBytes, fetch8]
  | .mem (.disp16 b d), _ => simp [resolve, RmOp.mod, RmOp.rm, RmOp.dispBytes]

theorem mod_cases (mod : BitVec 2) : mod = 0 ∨ mod = 1 ∨ mod = 2 ∨ mod = 3 := by
  revert mod
  decide

/-- A mode-0 base other than `rm = 6` is legal (R68, R69). -/
theorem base_wf (rm : BitVec 3) (h : ¬ rm = 6) : (Ea.base (EaBase.ofCode rm)).wf = true := by
  revert rm
  decide

/-- All that the resolver can answer: a legal operand, whose encoding is the bytes consumed (R66 to R72). -/
theorem resolve_some {mod : BitVec 2} {rm : BitVec 3} {w : Width} {bs rest : List Byte} {e : RmOp}
    (h : resolve mod rm w bs = some (e, rest)) :
    e.wfAt w = true ∧ bs = e.dispBytes ++ rest ∧ e.mod = mod ∧ e.rm = rm := by
  rcases mod_cases mod with rfl | rfl | rfl | rfl
  · by_cases hr : rm = 6
    · subst hr
      cases hf : fetch16 bs with
      | none => simp [resolve, hf] at h
      | some p =>
        simp only [resolve, hf] at h
        cases h
        exact ⟨rfl, fetch16_some hf, rfl, rfl⟩
    · simp only [resolve, hr] at h
      cases h
      exact ⟨base_wf rm hr, rfl, rfl, EaBase.code_ofCode rm⟩
  · cases hf : fetch8 bs with
    | none => simp [resolve, hf] at h
    | some p =>
      simp only [resolve, hf] at h
      cases h
      exact ⟨rfl, fetch8_some hf, rfl, EaBase.code_ofCode rm⟩
  · cases hf : fetch16 bs with
    | none => simp [resolve, hf] at h
    | some p =>
      simp only [resolve, hf] at h
      cases h
      exact ⟨rfl, fetch16_some hf, rfl, EaBase.code_ofCode rm⟩
  · simp only [resolve] at h
    cases h
    exact ⟨regSel_wf rm w, rfl, rfl, regSel_code_eq rm w⟩

/-! ### Immediates -/

@[simp] theorem fetchImm_bytes (w : Width) (i : Imm) (rest : List Byte) (h : i.sizedBy w = true) :
    fetchImm w (i.bytes ++ rest) = some (i, rest) := by
  match w, i, h with
  | .byte, .imm8 v, _ => rfl
  | .word, .imm16 v, _ => simp [fetchImm, Imm.bytes]

/-- What an immediate consumes (R73). -/
theorem fetchImm_some {w : Width} {bs rest : List Byte} {i : Imm} (h : fetchImm w bs = some (i, rest)) :
    i.sizedBy w = true ∧ bs = i.bytes ++ rest := by
  cases w with
  | byte =>
    cases hf : fetch8 bs with
    | none => simp [fetchImm, hf] at h
    | some p =>
      simp only [fetchImm, hf] at h
      cases h
      exact ⟨rfl, fetch8_some hf⟩
  | word =>
    cases hf : fetch16 bs with
    | none => simp [fetchImm, hf] at h
    | some p =>
      simp only [fetchImm, hf] at h
      cases h
      exact ⟨rfl, fetch16_some hf⟩

/-- What a GRP1 immediate consumes (R75). -/
theorem fetchGrp1Imm_some {s : Bool} {w : Width} {bs rest : List Byte} {i : Imm}
    (h : fetchGrp1Imm s w bs = some (i, rest)) :
    i.sizedBy (if s then .byte else w) = true ∧ i.grp1SizedBy w = true ∧ bs = i.bytes ++ rest := by
  obtain ⟨hi, hb⟩ := fetchImm_some h
  refine ⟨hi, ?_, hb⟩
  cases s <;> cases w <;> cases i <;> first | rfl | cases hi

/-! ### The decoder and its family parsers -/

/-- How an opcode byte and its family's parser decode. -/
theorem decode_of_parse {b : Byte} {bs : List Byte} {f : Family} {p : Instr × List Byte} (hf : familyOf b = some f)
    (hp : parseOperands f bs = some p) : decode (b :: bs) = .ok p := by
  simp only [decode, hf, hp]

/-- All that a successful decode says: a byte of a family, and what its parser reads (R78 to R86). -/
theorem decode_ok {bs : List Byte} {p : Instr × List Byte} (h : decode bs = .ok p) :
    ∃ b rest f, bs = b :: rest ∧ familyOf b = some f ∧ parseOperands f rest = some p := by
  cases bs with
  | nil => cases h
  | cons b rest =>
    cases hf : familyOf b with
    | none => simp only [decode, hf] at h; cases h
    | some f =>
      cases hp : parseOperands f rest with
      | none => simp only [decode, hf, hp] at h; cases h
      | some q =>
        simp only [decode, hf, hp] at h
        exact ⟨b, rest, f, rfl, hf, by rw [hp, Except.ok.inj h]⟩

/-- A byte of no family is an unknown opcode (R86). -/
theorem decode_unknown {b : Byte} (bs : List Byte) (hf : familyOf b = none) :
    decode (b :: bs) = .error (.unknownOpcode b) := by
  simp only [decode, hf]

/-- A parser that runs out of bytes makes a truncated stream (R61). -/
theorem decode_truncated {b : Byte} {bs : List Byte} {f : Family} (hf : familyOf b = some f)
    (hp : parseOperands f bs = none) : decode (b :: bs) = .error (.truncated b) := by
  simp only [decode, hf, hp]

/-- The parser reads back an encoded mode byte and operand (R64, R66 to R71). -/
theorem resolve_encodeRm (w : Width) (reg : BitVec 3) (e : RmOp) (rest : List Byte) (h : e.wfAt w = true) :
    resolve (modField (modeByte e.mod reg e.rm)) (rmField (modeByte e.mod reg e.rm)) w (e.dispBytes ++ rest) =
      some (e, rest) := by
  rw [modField_modeByte, rmField_modeByte]
  exact resolve_encode w e rest h

/-- The bytes of an operand that follows mode byte `m` (R64, R66 to R71). -/
theorem encodeRm_of_resolve {w : Width} {m : Byte} {ms rest : List Byte} {e : RmOp}
    (h : resolve (modField m) (rmField m) w ms = some (e, rest)) :
    e.wfAt w = true ∧ m :: ms = encodeRm (regField m) e ++ rest := by
  obtain ⟨hw, hb, hm, hr⟩ := resolve_some h
  exact ⟨hw, by rw [encodeRm, hm, hr, modeByte_fields, hb, List.cons_append]⟩

/-! ### Lengths -/

@[simp] theorem wordBytes_length (v : Word) : (wordBytes v).length = 2 :=
  rfl

@[simp] theorem RmOp.dispBytes_length (e : RmOp) : e.dispBytes.length = e.dispLength := by
  match e with
  | .reg _ => rfl
  | .mem (.base _) => rfl
  | .mem (.direct _) => rfl
  | .mem (.disp8 _ _) => rfl
  | .mem (.disp16 _ _) => rfl

@[simp] theorem Imm.bytes_length (i : Imm) : i.bytes.length = i.length := by
  cases i <;> rfl

theorem RmOp.dispLength_le (e : RmOp) : e.dispLength ≤ 2 := by
  unfold RmOp.dispLength
  split <;> decide

theorem Imm.length_le (i : Imm) : 1 ≤ i.length ∧ i.length ≤ 2 := by
  unfold Imm.length
  split <;> decide

/-- The bytes of an instruction with a mode byte. -/
theorem encodeRm_length (reg : BitVec 3) (e : RmOp) : (encodeRm reg e).length = 1 + e.dispLength := by
  simp [encodeRm, Nat.add_comm]

end Sys2Proof
end

