-- ==== Sys2Proof/Laws/Estimator.lean ====
section
/-! SUPPORT. Laws of the cycle-cost estimator and of the decoded record (spec/70_reset_and_hazards.md R215, R221;
spec/30_encoding.md R60). -/

namespace Sys2Proof.Machine

@[simp] theorem Cost.total_notComputed : Cost.notComputed.total = 0 :=
  rfl

@[simp] theorem Cost.total_computed (b e p : Nat) : (Cost.computed b e p).total = b + e + p :=
  rfl

theorem costState_pre {s : State} (t : State) (h : s.cfg.costState = .pre) : costState s t = s := by
  simp only [costState, h]

theorem costState_post {s : State} (t : State) (h : s.cfg.costState = .post) : costState s t = t := by
  simp only [costState, h]

@[simp] theorem RmOp.operand_ea (e : RmOp) (m : Ea) : e.operand = .ea m ↔ rmMemory e = some m := by
  cases e <;> simp [RmOp.operand, rmMemory]

/-- The memory operand is the effective address in an operand slot of the record (R60, R221). -/
theorem hasAddress_iff (i : Instr) (m : Ea) : HasAddress i m ↔ memoryOperand i = some m := by
  unfold HasAddress
  cases i <;> simp [Instr.record, jumpRecord, memoryOperand]

/-- No address in the record, no memory operand. -/
theorem memoryOperand_none {i : Instr} (h : ∀ m, ¬ HasAddress i m) : memoryOperand i = none := by
  cases hm : memoryOperand i with
  | none => rfl
  | some m => exact absurd ((hasAddress_iff i m).mpr hm) (h m)

/-- An address is odd when its lowest bit is set (R221). -/
theorem getLsbD_zero_iff_odd (v : Word) : v.getLsbD 0 = true ↔ v.toNat % 2 = 1 := by
  rw [BitVec.getLsbD, Nat.testBit_zero]
  simp

end Sys2Proof.Machine
end

