-- ==== Sys2Proof/Laws/Exec.lean ====
section
/-! SUPPORT. All that the execute phase can do, said once: every completed instruction has one of five effects, and the
frames that follow from it (spec/40_mov.md, spec/41_arith.md, spec/42_control.md). -/

namespace Sys2Proof.Machine

/-! ### The shared bodies -/

theorem State.execute_next {s t : State} {i : Instr} {body : State → Except Fault State}
    (h : s.execute i body = .next t) : body (s.setPc (s.pc + i.length)) = .ok t := by
  unfold State.execute at h
  split at h
  · rename_i u hu
    rw [hu, Host.Outcome.next.inj h]
  · cases h

theorem State.execute_fault {s : State} {i : Instr} {body : State → Except Fault State} {f : Fault}
    (h : s.execute i body = .fault f) : body (s.setPc (s.pc + i.length)) = .error f := by
  unfold State.execute at h
  split at h
  · cases h
  · rename_i g hg
    rw [hg, Host.Outcome.fault.inj h]

theorem State.execute_ok {s t : State} {i : Instr} {body : State → Except Fault State}
    (h : body (s.setPc (s.pc + i.length)) = .ok t) : s.execute i body = .next t := by
  simp [State.execute, h]

theorem State.execute_error {s : State} {i : Instr} {body : State → Except Fault State} {f : Fault}
    (h : body (s.setPc (s.pc + i.length)) = .error f) : s.execute i body = .fault f := by
  simp [State.execute, h]

theorem State.execute_not_refused (s : State) (i : Instr) (body : State → Except Fault State) (r : Refusal) :
    s.execute i body ≠ .refused r := by
  unfold State.execute
  split <;> simp

/-- All a completed move does: its destination is written with the value read (R103). -/
theorem move_ok {w : Width} {d : Loc} {x : Source} {s t : State} (h : move w d x s = .ok t) :
    ∃ v, s.readSource w x = .ok v ∧ s.writeLoc w d v = .ok t := by
  unfold move at h
  cases hv : s.readSource w x with
  | error f => simp [hv, bind, Except.bind] at h
  | ok v => exact ⟨v, rfl, by simpa [hv, bind, Except.bind] using h⟩

/-- All a completed arithmetic operation does (R120 to R123). -/
theorem arith_ok {op : ArithOp} {b0 : Byte} {w : Width} {d : Loc} {x : Source} {s t : State}
    (h : arith op b0 w d x s = .ok t) :
    s.refusesDest d = false ∧ ∃ a b u, s.readLoc w d = .ok a ∧ s.readSource w x = .ok b ∧
      s.writeResult op w d (arithResult op a b) = .ok u ∧ t = u.resultFlags w d (arithResult op a b) := by
  unfold arith at h
  cases hr : s.refusesDest d
  · rw [if_neg (by simp [hr])] at h
    refine ⟨rfl, ?_⟩
    cases ha : s.readLoc w d with
    | error f => simp [ha, bind, Except.bind] at h
    | ok a =>
      cases hb : s.readSource w x with
      | error f => simp [ha, hb, bind, Except.bind] at h
      | ok b =>
        cases hu : s.writeResult op w d (arithResult op a b) with
        | error f => simp [ha, hb, hu, bind, Except.bind] at h
        | ok u =>
          exact ⟨a, b, u, rfl, rfl, hu, by
            simpa [ha, hb, hu, bind, Except.bind, pure, Except.pure] using h.symm⟩
  · simp [hr] at h

/-- How an arithmetic operation completes: the rule to run one forwards (R120 to R123). -/
theorem arith_of_reads {op : ArithOp} {b0 : Byte} {w : Width} {d : Loc} {x : Source} {s u : State} {a b : Word}
    (hr : s.refusesDest d = false) (ha : s.readLoc w d = .ok a) (hb : s.readSource w x = .ok b)
    (hu : s.writeResult op w d (arithResult op a b) = .ok u) :
    arith op b0 w d x s = .ok (u.resultFlags w d (arithResult op a b)) := by
  simp [arith, hr, ha, hb, hu, bind, Except.bind, pure, Except.pure]

theorem State.jumpTo_ok {s t : State} {x : Int} (h : s.jumpTo x = .ok t) :
    0 ≤ x ∧ x ≤ s.stream.length ∧ t = s.setPc x.toNat := by
  unfold State.jumpTo at h
  split at h
  · rename_i hx
    exact ⟨hx.1, hx.2, (Except.ok.inj h).symm⟩
  · cases h

/-! ### The effects -/

/-- The operand slot of a location. -/
def Loc.operand : Loc → Operand
  | .reg r => .reg r
  | .acc w => .acc w
  | .ea m => .ea m

@[simp] theorem rmLoc_operand (e : RmOp) : (rmLoc e).operand = e.operand := by
  cases e <;> rfl

/-- What a completed instruction with operation `op` and destination `dst` makes of the state `u` in which its execute
phase began. -/
inductive Effect (op : OpTag) (dst : Operand) (u : State) : State → Prop where
  /-- Nothing: an inactive jump, a jnz not taken, a cmp with a memory operand 1. -/
  | nothing : Effect op dst u u
  /-- A move to a register or the accumulator. -/
  | register (r : RegOp) (v : Word) : op = .mov → dst = .reg r ∨ (∃ w, dst = .acc w ∧ r = accReg w) →
      Effect op dst u (u.writeReg r v)
  /-- A move, an add or a sub to memory. -/
  | memory (m : Ea) (w : Width) (v : Word) : (op = .mov ∨ op = .arith .add ∨ op = .arith .sub) → dst = .ea m →
      (u.eaValue m).toNat + w.bytes ≤ u.cfg.memSize →
      Effect op dst u (u.setMem (Memory.store u.mem (u.eaValue m).toNat w v))
  /-- An add or a sub to a register or the accumulator. -/
  | result (r : RegOp) (w : Width) (v : Word) : (op = .arith .add ∨ op = .arith .sub) →
      dst = .reg r ∨ (∃ w, dst = .acc w ∧ r = accReg w) → Effect op dst u ((u.writeReg r v).setFlags w v)
  /-- A cmp of a register or the accumulator. -/
  | compare (r : RegOp) (w : Width) (v : Word) : op = .arith .cmp →
      dst = .reg r ∨ (∃ w, dst = .acc w ∧ r = accReg w) → Effect op dst u (u.setFlags w v)
  /-- A taken jnz. -/
  | jump (d : Byte) (n : Nat) : op = .jump .jnz → dst = .rel d → u.zf = false → (n : Int) = u.jumpTarget d →
      n ≤ u.stream.length → Effect op dst u (u.setPc n)

theorem move_effect {w : Width} {d : Loc} {x : Source} {u t : State} (h : move w d x u = .ok t) :
    Effect .mov d.operand u t := by
  obtain ⟨v, -, h⟩ := move_ok h
  rcases State.writeLoc_ok h with ⟨r, rfl, rfl⟩ | ⟨w', rfl, rfl⟩ | ⟨m, rfl, hb, rfl⟩
  · exact .register r v rfl (.inl rfl)
  · exact .register _ v rfl (.inr ⟨w', rfl, rfl⟩)
  · exact .memory m w v (.inl rfl) rfl hb

theorem arith_effect {op : ArithOp} {b0 : Byte} {w : Width} {d : Loc} {x : Source} {u t : State}
    (h : arith op b0 w d x u = .ok t) : Effect (.arith op) d.operand u t := by
  obtain ⟨-, a, b, s, -, -, hw, rfl⟩ := arith_ok h
  cases op with
  | cmp =>
    obtain rfl := Except.ok.inj hw
    cases d with
    | reg r => exact .compare r w _ rfl (.inl rfl)
    | acc v => exact .compare _ w _ rfl (.inr ⟨v, rfl, rfl⟩)
    | ea m => exact .nothing
  | add =>
    rcases State.writeLoc_ok hw with ⟨r, rfl, rfl⟩ | ⟨w', rfl, rfl⟩ | ⟨m, rfl, hb, rfl⟩
    · exact .result r w _ (.inl rfl) (.inl rfl)
    · exact .result _ w _ (.inl rfl) (.inr ⟨w', rfl, rfl⟩)
    · exact .memory m w _ (.inr (.inl rfl)) rfl hb
  | sub =>
    rcases State.writeLoc_ok hw with ⟨r, rfl, rfl⟩ | ⟨w', rfl, rfl⟩ | ⟨m, rfl, hb, rfl⟩
    · exact .result r w _ (.inr rfl) (.inl rfl)
    · exact .result _ w _ (.inr rfl) (.inr ⟨w', rfl, rfl⟩)
    · exact .memory m w _ (.inr (.inr rfl)) rfl hb

theorem inactiveJump_ok {b0 : Byte} {u t : State} (h : inactiveJump b0 u = .ok t) : t = u := by
  unfold inactiveJump at h
  split at h
  · exact (Except.ok.inj h).symm
  · cases h

theorem inactiveJump_effect {op : OpTag} {dst : Operand} {b0 : Byte} {u t : State} (h : inactiveJump b0 u = .ok t) :
    Effect op dst u t := by
  rw [inactiveJump_ok h]
  exact .nothing

theorem jumpIfNotZero_effect {v : Byte} {u t : State} (h : jumpIfNotZero v u = .ok t) :
    Effect (.jump .jnz) (.rel v) u t := by
  unfold jumpIfNotZero at h
  split at h
  · rw [← Except.ok.inj h]
    exact .nothing
  · rename_i hz
    obtain ⟨h0, hl, rfl⟩ := State.jumpTo_ok h
    exact .jump v _ rfl rfl (by simpa using hz) (by omega) (by omega)

/-- All that a completed instruction can do, in the state with the cursor past it. -/
theorem exec_effect {i : Instr} {s t : State} (h : exec i s = .next t) :
    Effect (i.record s.pc).op (i.record s.pc).dst (s.setPc (s.pc + i.length)) t := by
  cases i
  case movRmR w d r =>
    have e := move_effect (State.execute_next (exec_movRmR w d r s ▸ h))
    rwa [rmLoc_operand] at e
  case movRRm w d e => exact move_effect (State.execute_next (exec_movRRm w d e s ▸ h))
  case movRmImm w d v =>
    have e := move_effect (State.execute_next (exec_movRmImm w d v s ▸ h))
    rwa [rmLoc_operand] at e
  case movRImm w d v => exact move_effect (State.execute_next (exec_movRImm w d v s ▸ h))
  case movAccMem w a => exact move_effect (State.execute_next (exec_movAccMem w a s ▸ h))
  case movMemAcc w a => exact move_effect (State.execute_next (exec_movMemAcc w a s ▸ h))
  case addRRm w d e => exact arith_effect (State.execute_next (exec_addRRm w d e s ▸ h))
  case subRRm w d e => exact arith_effect (State.execute_next (exec_subRRm w d e s ▸ h))
  case cmpRRm w d e => exact arith_effect (State.execute_next (exec_cmpRRm w d e s ▸ h))
  case addAccImm w v => exact arith_effect (State.execute_next (exec_addAccImm w v s ▸ h))
  case subAccImm w v => exact arith_effect (State.execute_next (exec_subAccImm w v s ▸ h))
  case cmpAccImm w v => exact arith_effect (State.execute_next (exec_cmpAccImm w v s ▸ h))
  case addRmR w d r =>
    have e := arith_effect (State.execute_next (exec_addRmR w d r s ▸ h))
    rwa [rmLoc_operand] at e
  case subRmR w d r =>
    have e := arith_effect (State.execute_next (exec_subRmR w d r s ▸ h))
    rwa [rmLoc_operand] at e
  case cmpRmR w d r =>
    have e := arith_effect (State.execute_next (exec_cmpRmR w d r s ▸ h))
    rwa [rmLoc_operand] at e
  case addRmImm w d v =>
    have e := arith_effect (State.execute_next (exec_addRmImm w d v s ▸ h))
    rwa [rmLoc_operand] at e
  case addRmImmR1 w d v =>
    have e := arith_effect (State.execute_next (exec_addRmImmR1 w d v s ▸ h))
    rwa [rmLoc_operand] at e
  case addRmImmR2 w d v =>
    have e := arith_effect (State.execute_next (exec_addRmImmR2 w d v s ▸ h))
    rwa [rmLoc_operand] at e
  case addRmImmR3 w d v =>
    have e := arith_effect (State.execute_next (exec_addRmImmR3 w d v s ▸ h))
    rwa [rmLoc_operand] at e
  case addRmImmR4 w d v =>
    have e := arith_effect (State.execute_next (exec_addRmImmR4 w d v s ▸ h))
    rwa [rmLoc_operand] at e
  case addRmImmR6 w d v =>
    have e := arith_effect (State.execute_next (exec_addRmImmR6 w d v s ▸ h))
    rwa [rmLoc_operand] at e
  case subRmImm w d v =>
    have e := arith_effect (State.execute_next (exec_subRmImm w d v s ▸ h))
    rwa [rmLoc_operand] at e
  case cmpRmImm w d v =>
    have e := arith_effect (State.execute_next (exec_cmpRmImm w d v s ▸ h))
    rwa [rmLoc_operand] at e
  case jnz v => exact jumpIfNotZero_effect (State.execute_next (exec_jnz v s ▸ h))
  all_goals exact inactiveJump_effect (State.execute_next h)

/-- The execute phase leaves the parameters, the stream, the halt status, `CYC` and the output port alone. -/
theorem exec_bookkeeping {i : Instr} {s t : State} (h : exec i s = .next t) : SameBookkeeping s t := by
  cases exec_effect h <;> exact ⟨rfl, rfl, rfl, rfl, rfl⟩

/-- No instruction is refused: every arm has a meaning that completes or raises a fault. -/
theorem exec_not_refused (i : Instr) (s : State) (r : Refusal) : exec i s ≠ .refused r := by
  cases i
  case movRImm w d v =>
    rw [exec_movRImm]
    exact State.execute_not_refused s _ _ r
  all_goals exact State.execute_not_refused s _ _ r

end Sys2Proof.Machine
end

