-- ==== Sys2Proof/Laws/PerInstr.lean ====
section
/-! SUPPORT. Per-instruction laws. Family EncodeLength: an instruction's encoding has exactly the length the instruction
reports, 2 to 6 bytes (spec/30_encoding.md R62, R88). -/

namespace Sys2Proof.Laws.EncodeLength

/-- The encoding of `i` has `i.length` bytes, and that is 2 to 6. -/
def Statement (i : Instr) : Prop :=
  (encode i).length = i.length ∧ 2 ≤ i.length ∧ i.length ≤ 6

/-- The statement of an instruction with a mode byte and no immediate. -/
theorem of_rm {i : Instr} {reg : BitVec 3} {e : RmOp} (hb : i.operandBytes = encodeRm reg e)
    (hl : i.length = 2 + e.dispLength) : Statement i := by
  have := e.dispLength_le
  refine ⟨?_, by omega, by omega⟩
  rw [encode, hb, List.length_cons, encodeRm_length]
  omega

/-- The statement of an instruction with a mode byte and an immediate. -/
theorem of_rm_imm {i : Instr} {reg : BitVec 3} {e : RmOp} {v : Imm} (hb : i.operandBytes = encodeRm reg e ++ v.bytes)
    (hl : i.length = 2 + e.dispLength + v.length) : Statement i := by
  have := e.dispLength_le
  have := v.length_le
  refine ⟨?_, by omega, by omega⟩
  rw [encode, hb, List.length_cons, List.length_append, encodeRm_length, Imm.bytes_length]
  omega

/-- The statement of an instruction with an immediate only. -/
theorem of_imm {i : Instr} {v : Imm} (hb : i.operandBytes = v.bytes) (hl : i.length = 1 + v.length) : Statement i := by
  have := v.length_le
  refine ⟨?_, by omega, by omega⟩
  rw [encode, hb, List.length_cons, Imm.bytes_length]
  omega

/-- The statement of an accumulator move. -/
theorem of_address {i : Instr} {a : Word} (hb : i.operandBytes = wordBytes a) (hl : i.length = 3) : Statement i := by
  refine ⟨?_, by omega, by omega⟩
  rw [encode, hb, hl, List.length_cons, wordBytes_length]

/-- The statement of a jump or loop. -/
theorem of_rel {i : Instr} {v : Byte} (hb : i.operandBytes = [v]) (hl : i.length = 2) : Statement i := by
  refine ⟨?_, by omega, by omega⟩
  rw [encode, hb, hl, List.length_cons, List.length_singleton]

theorem movRmR (w : Width) (dst : RmOp) (src : RegOp) : Statement (.movRmR w dst src) :=
  of_rm rfl rfl

theorem movRRm (w : Width) (dst : RegOp) (src : RmOp) : Statement (.movRRm w dst src) :=
  of_rm rfl rfl

theorem addRmR (w : Width) (dst : RmOp) (src : RegOp) : Statement (.addRmR w dst src) :=
  of_rm rfl rfl

theorem addRRm (w : Width) (dst : RegOp) (src : RmOp) : Statement (.addRRm w dst src) :=
  of_rm rfl rfl

theorem subRmR (w : Width) (dst : RmOp) (src : RegOp) : Statement (.subRmR w dst src) :=
  of_rm rfl rfl

theorem subRRm (w : Width) (dst : RegOp) (src : RmOp) : Statement (.subRRm w dst src) :=
  of_rm rfl rfl

theorem cmpRmR (w : Width) (dst : RmOp) (src : RegOp) : Statement (.cmpRmR w dst src) :=
  of_rm rfl rfl

theorem cmpRRm (w : Width) (dst : RegOp) (src : RmOp) : Statement (.cmpRRm w dst src) :=
  of_rm rfl rfl

theorem addRmImm (w : Width) (dst : RmOp) (imm : Imm) : Statement (.addRmImm w dst imm) :=
  of_rm_imm rfl rfl

theorem addRmImmR1 (w : Width) (dst : RmOp) (imm : Imm) : Statement (.addRmImmR1 w dst imm) :=
  of_rm_imm rfl rfl

theorem addRmImmR2 (w : Width) (dst : RmOp) (imm : Imm) : Statement (.addRmImmR2 w dst imm) :=
  of_rm_imm rfl rfl

theorem addRmImmR3 (w : Width) (dst : RmOp) (imm : Imm) : Statement (.addRmImmR3 w dst imm) :=
  of_rm_imm rfl rfl

theorem addRmImmR4 (w : Width) (dst : RmOp) (imm : Imm) : Statement (.addRmImmR4 w dst imm) :=
  of_rm_imm rfl rfl

theorem subRmImm (w : Width) (dst : RmOp) (imm : Imm) : Statement (.subRmImm w dst imm) :=
  of_rm_imm rfl rfl

theorem addRmImmR6 (w : Width) (dst : RmOp) (imm : Imm) : Statement (.addRmImmR6 w dst imm) :=
  of_rm_imm rfl rfl

theorem cmpRmImm (w : Width) (dst : RmOp) (imm : Imm) : Statement (.cmpRmImm w dst imm) :=
  of_rm_imm rfl rfl

theorem movRmImm (w : Width) (dst : RmOp) (imm : Imm) : Statement (.movRmImm w dst imm) :=
  of_rm_imm rfl rfl

theorem movRImm (w : Width) (dst : RegOp) (imm : Imm) : Statement (.movRImm w dst imm) :=
  of_imm rfl rfl

theorem movAccMem (w : Width) (addr : Word) : Statement (.movAccMem w addr) :=
  of_address rfl rfl

theorem movMemAcc (w : Width) (addr : Word) : Statement (.movMemAcc w addr) :=
  of_address rfl rfl

theorem addAccImm (w : Width) (imm : Imm) : Statement (.addAccImm w imm) :=
  of_imm rfl rfl

theorem subAccImm (w : Width) (imm : Imm) : Statement (.subAccImm w imm) :=
  of_imm rfl rfl

theorem cmpAccImm (w : Width) (imm : Imm) : Statement (.cmpAccImm w imm) :=
  of_imm rfl rfl

theorem jo (rel : Byte) : Statement (.jo rel) :=
  of_rel rfl rfl

theorem jno (rel : Byte) : Statement (.jno rel) :=
  of_rel rfl rfl

theorem jb (rel : Byte) : Statement (.jb rel) :=
  of_rel rfl rfl

theorem jnb (rel : Byte) : Statement (.jnb rel) :=
  of_rel rfl rfl

theorem je (rel : Byte) : Statement (.je rel) :=
  of_rel rfl rfl

theorem jnz (rel : Byte) : Statement (.jnz rel) :=
  of_rel rfl rfl

theorem jbe (rel : Byte) : Statement (.jbe rel) :=
  of_rel rfl rfl

theorem ja (rel : Byte) : Statement (.ja rel) :=
  of_rel rfl rfl

theorem js (rel : Byte) : Statement (.js rel) :=
  of_rel rfl rfl

theorem jns (rel : Byte) : Statement (.jns rel) :=
  of_rel rfl rfl

theorem jp (rel : Byte) : Statement (.jp rel) :=
  of_rel rfl rfl

theorem jnp (rel : Byte) : Statement (.jnp rel) :=
  of_rel rfl rfl

theorem jl (rel : Byte) : Statement (.jl rel) :=
  of_rel rfl rfl

theorem jnl (rel : Byte) : Statement (.jnl rel) :=
  of_rel rfl rfl

theorem jle (rel : Byte) : Statement (.jle rel) :=
  of_rel rfl rfl

theorem jg (rel : Byte) : Statement (.jg rel) :=
  of_rel rfl rfl

theorem loopnz (rel : Byte) : Statement (.loopnz rel) :=
  of_rel rfl rfl

theorem loopz (rel : Byte) : Statement (.loopz rel) :=
  of_rel rfl rfl

theorem loop (rel : Byte) : Statement (.loop rel) :=
  of_rel rfl rfl

theorem jcxz (rel : Byte) : Statement (.jcxz rel) :=
  of_rel rfl rfl

end Sys2Proof.Laws.EncodeLength
end

