-- ==== Sys2Proof/Laws/Step.lean ====
section
/-! SUPPORT. All that a step can do, said once (spec/70_reset_and_hazards.md R203, spec/60_exceptions.md R180 to R186). -/

namespace Sys2Proof.Machine

/-! ### The end of a completed instruction -/

/-- What the end of a step touches: `CYC` and the output port (R203, R222). -/
theorem account_frame (i : Instr) (s t : State) :
    account i s t = { t with cyc := (account i s t).cyc, out := (account i s t).out } := by
  unfold account
  split <;> rfl

/-- With the estimator on the total is added to `CYC`, and the record carries the cost and the count (R203, R222). -/
theorem account_on {i : Instr} {s t : State} (h : s.cfg.estimatorOn = true) :
    account i s t = { t with
      cyc := t.cyc + (cost (costState s t) i).total
      out := some ⟨i.record s.pc, some (cost (costState s t) i, t.cyc + (cost (costState s t) i).total)⟩ } :=
  if_pos h

/-- With the estimator off `CYC` stays and the record carries no cost (R33, R203). -/
theorem account_off {i : Instr} {s t : State} (h : s.cfg.estimatorOn = false) :
    account i s t = { t with out := some ⟨i.record s.pc, none⟩ } :=
  if_neg (by simp [h])

/-! ### The step -/

/-- A step at the end of the stream ends the run (R205). -/
theorem step_at_end {s : State} (hs : s.status = .running) (hp : s.pc = s.stream.length) : step s = .next s.endRun := by
  simp only [step, hs, State.turn, hp, if_true]

/-- A step inside the stream decodes at the cursor (R203). -/
theorem step_inside {s : State} (hs : s.status = .running) (hp : s.pc ≠ s.stream.length) : step s = s.runOne := by
  simp only [step, hs, State.turn, hp, if_false]

/-- Bytes decode only before the end of the stream. -/
theorem pc_ne_length_of_decode {s : State} {p : Instr × List Byte} (h : decode s.fetchBytes = .ok p) :
    s.pc ≠ s.stream.length := by
  intro hp
  have he : s.fetchBytes = [] := by rw [State.fetchBytes, hp, List.drop_length]
  rw [he] at h
  cases h

/-- A step of a running machine runs the instruction at the cursor (R203). -/
theorem step_of_decode {s : State} {p : Instr × List Byte} (hs : s.status = .running)
    (h : decode s.fetchBytes = .ok p) : step s = s.conclude p.1 (exec p.1 s) := by
  rw [step_inside hs (pc_ne_length_of_decode h)]
  simp only [State.runOne, h]

/-- All that a step which answers a state can do: end the run, record a fault, or complete one instruction. -/
theorem step_next {s t : State} (h : step s = .next t) :
    s.status = .running ∧
      ((s.pc = s.stream.length ∧ t = s.endRun) ∨
      (s.pc ≠ s.stream.length ∧ ∃ f, t = s.takeFault f) ∨
      ∃ i rest u, decode s.fetchBytes = .ok (i, rest) ∧ exec i s = .next u ∧ t = account i s u) := by
  unfold step at h
  split at h
  · cases h
  · cases h
  · rename_i hs
    refine ⟨hs, ?_⟩
    unfold State.turn at h
    split at h
    · rename_i hp
      exact .inl ⟨hp, (Host.Outcome.next.inj h).symm⟩
    · rename_i hp
      unfold State.runOne at h
      split at h
      · rename_i e _
        cases e <;> cases h
        · exact .inr (.inl ⟨hp, _, rfl⟩)
        · exact .inr (.inl ⟨hp, _, rfl⟩)
      · rename_i p hd
        unfold State.conclude at h
        split at h
        · rename_i u hu
          exact .inr (.inr ⟨p.1, p.2, u, hd, hu, (Host.Outcome.next.inj h).symm⟩)
        · exact .inr (.inl ⟨hp, _, (Host.Outcome.next.inj h).symm⟩)
        · cases h

end Sys2Proof.Machine
end

