-- ==== Sys2Proof/Tests/Slice0.lean ====
section
/-! SUPPORT. The model's own tests: ill-formed terms that WellFormed refuses, the decoding of every constructor from a
word written out from the spec's encodings, single steps whose results stand in spec/95_test_vectors.md, and a witness
for the hypotheses of each statement that has any. -/

namespace Sys2Proof.Tests

open Sys2Proof.Machine

/-! ### Helpers -/

/-- The all-zero register file. -/
def zeros : RegFile := LaunchImage.zero.regs

/-- A run about to start, with ZF and SF 0. -/
def start (cfg : Config) (regs : RegFile) (cells : List Host.Cell) (stream : List Byte) : State :=
  launch cfg ⟨regs, false, false, cells⟩ stream

/-- The next state of an outcome, if it is one. -/
def nextOf : Host.Outcome State Fault Refusal → Option State
  | .next t => some t
  | .fault _ => none
  | .refused _ => none

/-- The fault of an outcome, if it is one. -/
def faultOf : Host.Outcome State Fault Refusal → Option Fault
  | .next _ => none
  | .fault f => some f
  | .refused _ => none

/-- The refusal of an outcome, if it is one. -/
def refusalOf : Host.Outcome State Fault Refusal → Option Refusal
  | .next _ => none
  | .fault _ => none
  | .refused r => some r

/-- One field of the state after a step. -/
def afterStep {α : Type} (s : State) (f : State → α) : Option α :=
  (nextOf (step s)).map f

/-- The cost in the record that a step emits. -/
def stepCost (s : State) : Option Cost :=
  (afterStep s fun t => t.out.bind fun e => e.timing.map Prod.fst).join

/-- The instruction that bytes decode to, when nothing is left over. -/
def decoded (bs : List Byte) : Option Instr :=
  match decode bs with
  | .ok (i, []) => some i
  | .ok (_, _ :: _) => none
  | .error _ => none

def ax : RegOp := ⟨.ax, .low, .word⟩
def bx : RegOp := ⟨.bx, .low, .word⟩
def al : RegOp := ⟨.ax, .low, .byte⟩
def ah : RegOp := ⟨.ax, .high, .byte⟩

def signed8 : Config := { Config.default with disp8Ext := .sign, imm8Ext := .sign }
def byteFlags : Config := { Config.default with narrowFlags := .native8 }
def refusing : Config := { Config.default with accDest := .refuse, jccMode := .refuse }
def smallMemory : Config := { Config.default with memSize := 0x10000 }
def widthKeyed : Config := { Config.default with penaltyKey := .operandWidth }
def preCost : Config := { Config.default with costState := .pre }
def noEstimator : Config := { Config.default with estimatorOn := false }

/-! ### WellFormed refuses ill-formed terms -/

/-- A word operand has offset 0 (R21). -/
theorem test_refuses_high_half_of_a_word : RegOp.wf ⟨.ax, .high, .word⟩ = false := by decide

/-- `sp`, `bp`, `si` and `di` have no byte halves (R21). -/
theorem test_refuses_byte_half_of_sp : RegOp.wf ⟨.sp, .low, .byte⟩ = false := by decide

/-- `rm = 6` is no mode-0 base (R42, R69). -/
theorem test_refuses_mode_0_bp : (Instr.movRRm .word ax (.mem (.base .bp))).wellFormed = false := by decide

/-- A register operand has the instruction's width (R65). -/
theorem test_refuses_other_width :
    (Instr.movRmR .word (.reg ax) al).wellFormed = false ∧ (Instr.addRRm .byte al (.reg ax)).wellFormed = false ∧
    (Instr.cmpRmImm .byte (.reg ax) (.imm8 0)).wellFormed = false := by decide

/-- An immediate is sized by `w` (R73). -/
theorem test_refuses_immediate_of_other_size :
    (Instr.movRImm .byte al (.imm16 0)).wellFormed = false ∧
    (Instr.movRmImm .word (.mem (.direct 0)) (.imm8 0)).wellFormed = false ∧
    (Instr.addAccImm .word (.imm8 0)).wellFormed = false := by decide

/-- A byte operation of the GRP1 format has no 16-bit immediate (R75). -/
theorem test_refuses_grp1_word_immediate_of_byte :
    (Instr.subRmImm .byte (.reg al) (.imm16 0)).wellFormed = false := by decide

/-! ### Decoding, every constructor: the words are written out from R78 to R84 -/

/-- `10001000` to `10001011`, `1100011w`, `1011wrrr`, `101000dw`: the move forms. -/
theorem test_decode_moves :
    decoded [0b10001001, 0b11_011_000] = some (.movRmR .word (.reg ax) bx) ∧
    decoded [0b10001010, 0b11_100_000] = some (.movRRm .byte ah (.reg al)) ∧
    decoded [0b11000110, 0b00_000_110, 0xE8, 0x03, 0x7F] = some (.movRmImm .byte (.mem (.direct 0x03E8)) (.imm8 0x7F)) ∧
    decoded [0b1011_1_111, 0x34, 0x12] = some (.movRImm .word ⟨.di, .low, .word⟩ (.imm16 0x1234)) ∧
    decoded [0b1011_0_100, 0x80] = some (.movRImm .byte ah (.imm8 0x80)) ∧
    decoded [0b1010000_0, 0xE8, 0x03] = some (.movAccMem .byte 0x03E8) ∧
    decoded [0b1010001_1, 0xE8, 0x03] = some (.movMemAcc .word 0x03E8) := by decide

/-- The RM family of add, sub and cmp: `000000dw`, `001010dw`, `001110dw`. -/
theorem test_decode_arith_rm :
    decoded [0b000000_01, 0b01_000_111, 0xFF] = some (.addRmR .word (.mem (.disp8 .bx 0xFF)) ax) ∧
    decoded [0b000000_10, 0b11_000_100] = some (.addRRm .byte al (.reg ah)) ∧
    decoded [0b001010_00, 0b11_000_100] = some (.subRmR .byte (.reg ah) al) ∧
    decoded [0b001010_11, 0b10_011_111, 0x10, 0x00] = some (.subRRm .word bx (.mem (.disp16 .bx 0x0010))) ∧
    decoded [0b001110_01, 0b00_000_111] = some (.cmpRmR .word (.mem (.base .bx)) ax) ∧
    decoded [0b001110_11, 0b00_000_000] = some (.cmpRRm .word ax (.mem (.base .bxSi))) := by decide

/-- The GRP1 family `100000sw` with each value of `reg`. -/
theorem test_decode_arith_rm_imm :
    decoded [0b100000_11, 0b11_000_000, 0xFF] = some (.addRmImm .word (.reg ax) (.imm8 0xFF)) ∧
    decoded [0b100000_01, 0b11_001_000, 0xFF, 0x00] = some (.addRmImmR1 .word (.reg ax) (.imm16 0x00FF)) ∧
    decoded [0b100000_10, 0b11_010_000, 0xFF] = some (.addRmImmR2 .byte (.reg al) (.imm8 0xFF)) ∧
    decoded [0b100000_00, 0b11_011_100, 0x01] = some (.addRmImmR3 .byte (.reg ah) (.imm8 1)) ∧
    decoded [0b100000_11, 0b00_100_111, 0x01] = some (.addRmImmR4 .word (.mem (.base .bx)) (.imm8 1)) ∧
    decoded [0b100000_11, 0b11_101_000, 0x01] = some (.subRmImm .word (.reg ax) (.imm8 1)) ∧
    decoded [0b100000_11, 0b11_110_000, 0x01] = some (.addRmImmR6 .word (.reg ax) (.imm8 1)) ∧
    decoded [0b100000_00, 0b00_111_110, 0xE8, 0x03, 0x05] = some (.cmpRmImm .byte (.mem (.direct 0x03E8)) (.imm8 5)) := by
  decide

/-- The AI family `0000010w`, `0010110w`, `0011110w`. -/
theorem test_decode_accumulator :
    decoded [0b0000010_0, 0x7F] = some (.addAccImm .byte (.imm8 0x7F)) ∧
    decoded [0b0010110_1, 0x01, 0x00] = some (.subAccImm .word (.imm16 1)) ∧
    decoded [0b0011110_0, 0x00] = some (.cmpAccImm .byte (.imm8 0)) := by decide

/-- The J family's opcode bytes `0111cccc`, in the order of R84. -/
theorem test_decode_conditional_jumps :
    decoded [0x70, 0xFE] = some (.jo 0xFE) ∧ decoded [0x71, 0xFE] = some (.jno 0xFE) ∧
    decoded [0x72, 0xFE] = some (.jb 0xFE) ∧ decoded [0x73, 0xFE] = some (.jnb 0xFE) ∧
    decoded [0x74, 0xFE] = some (.je 0xFE) ∧ decoded [0x75, 0xFE] = some (.jnz 0xFE) ∧
    decoded [0x76, 0xFE] = some (.jbe 0xFE) ∧ decoded [0x77, 0xFE] = some (.ja 0xFE) ∧
    decoded [0x78, 0xFE] = some (.js 0xFE) ∧ decoded [0x79, 0xFE] = some (.jns 0xFE) ∧
    decoded [0x7A, 0xFE] = some (.jp 0xFE) ∧ decoded [0x7B, 0xFE] = some (.jnp 0xFE) ∧
    decoded [0x7C, 0xFE] = some (.jl 0xFE) ∧ decoded [0x7D, 0xFE] = some (.jnl 0xFE) ∧
    decoded [0x7E, 0xFE] = some (.jle 0xFE) ∧ decoded [0x7F, 0xFE] = some (.jg 0xFE) := by decide

/-- The J family's opcode bytes 0xE0 to 0xE3. -/
theorem test_decode_loops :
    decoded [0xE0, 0xFE] = some (.loopnz 0xFE) ∧ decoded [0xE1, 0xFE] = some (.loopz 0xFE) ∧
    decoded [0xE2, 0xFE] = some (.loop 0xFE) ∧ decoded [0xE3, 0xFE] = some (.jcxz 0xFE) := by decide

/-- No prefix, `nop`, `int` or `call` exists (vectors F2, F11 to F13). -/
theorem test_decode_unknown :
    ([0x26, 0x90, 0xCD, 0xE8, 0x0F] : List Byte).map (fun b => decode [b, 0, 0]) =
      [0x26, 0x90, 0xCD, 0xE8, 0x0F].map fun b => .error (.unknownOpcode b) := by decide

/-- The encoder writes the spec's bytes (vectors D12, D18). -/
theorem test_encode :
    encode (.movRmImm .word (.mem (.disp16 .bp 0x03E8)) (.imm16 0x012C)) = [0xC7, 0x86, 0xE8, 0x03, 0x2C, 0x01] ∧
    encode (.subAccImm .word (.imm16 1)) = [0x2D, 0x01, 0x00] := by decide

/-- The opcode table's numbers: one byte, and `byte0 * 256 + byte1` for the GRP1 rows (spec/INDEX.md). -/
theorem test_table_words :
    decodeTableWord 8 0x88 = some (.movRmR .byte (.mem (.base .bxSi)) al) ∧
    decodeTableWord 16 0x8128 = some (.subRmImm .word (.mem (.base .bxSi)) (.imm16 0)) ∧
    decodeTableWord 8 0x90 = none := by decide

/-- The step after `withFetchWord` runs the instruction, from reset (log entry 2). -/
theorem test_fetch_word :
    afterStep (State.reset.withFetchWord 8 0x75) (fun t => t.out.map fun e => (e.instr.form, e.instr.start)) =
      some (some (.jump .jnz, 0)) ∧
    afterStep (State.reset.withFetchWord 16 0x8100) (fun t => t.out.map fun e => (e.instr.form, e.instr.len)) =
      some (some (.ADD_RM_IMM, 4)) := by decide

/-! ### Single steps: the vector of spec/95_test_vectors.md is named -/

/-- M2. -/
theorem test_mov_low_from_high :
    afterStep (start Config.default { zeros with ax := 0x12FF } [] [0x88, 0xE0]) (·.regs.ax) = some 0x1212 := by decide

/-- M4: the address uses the old `bx`. -/
theorem test_mov_overwrites_its_address_register :
    afterStep (start Config.default { zeros with bx := 0x03E8 } [(1000, 0x34), (1001, 0x12)] [0x8B, 0x1F])
      (·.regs.bx) = some 0x1234 := by decide

/-- M6: a byte store writes one byte. -/
theorem test_mov_byte_to_memory :
    afterStep (start Config.default zeros [(1001, 0x99)] [0xC6, 0x06, 0xE8, 0x03, 0x7F]) (·.mem) =
      some [(1000, 0x7F), (1001, 0x99)] := by decide

/-- D20. -/
theorem test_mov_immediate_to_high :
    afterStep (start Config.default zeros [] [0xB4, 0x80]) (·.regs.ax) = some 0x8000 := by decide

/-- M9: only `al` is written. -/
theorem test_mov_accumulator_from_memory :
    afterStep (start Config.default { zeros with ax := 0x1200 } [(1000, 0x78), (1001, 0x56)] [0xA0, 0xE8, 0x03])
      (·.regs.ax) = some 0x1278 := by decide

/-- M10: the second byte does not wrap. -/
theorem test_mov_word_at_the_top :
    afterStep (start Config.default { zeros with ax := 0xBEEF } [] [0xA3, 0xFF, 0xFF]) (·.mem) =
      some [(0xFFFF, 0xEF), (0x10000, 0xBE)] := by decide

/-- A1. -/
theorem test_add_wraps_to_zero :
    afterStep (start Config.default { zeros with ax := 0xFFFF, bx := 1 } [] [0x01, 0xD8])
      (fun t => (t.regs.ax, t.zf, t.sf)) = some (0, true, false) := by decide

/-- A4: flags kept, and zero bytes are not listed. -/
theorem test_add_to_memory_keeps_flags :
    afterStep (launch Config.default ⟨{ zeros with ax := 0xFFFF, bx := 0x03E8 }, false, true, [(1000, 1)]⟩ [0x01, 0x07])
      (fun t => (t.mem, t.zf, t.sf)) = some ([], false, true) := by decide

/-- A5 and A5n. -/
theorem test_add_byte_flags :
    afterStep (start Config.default { zeros with ax := 0x4040 } [] [0x02, 0xC4])
      (fun t => (t.regs.ax, t.zf, t.sf)) = some (0x4080, false, false) ∧
    afterStep (start byteFlags { zeros with ax := 0x4040 } [] [0x02, 0xC4])
      (fun t => (t.regs.ax, t.zf, t.sf)) = some (0x4080, false, true) := by decide

/-- A7 and A7s: the immediate's extension. -/
theorem test_add_immediate_extension :
    afterStep (start Config.default { zeros with ax := 1 } [] [0x83, 0xC0, 0xFF]) (·.regs.ax) = some 0x0100 ∧
    afterStep (start signed8 { zeros with ax := 1 } [] [0x83, 0xC0, 0xFF]) (fun t => (t.regs.ax, t.zf)) =
      some (0, true) := by decide

/-- A9b: `reg = 001` adds. -/
theorem test_alias_adds :
    afterStep (start Config.default { zeros with ax := 3 } [] [0x83, 0xC8, 0x01]) (·.regs.ax) = some 4 := by decide

/-- A11 and A11n. -/
theorem test_add_to_accumulator :
    afterStep (start Config.default { zeros with ax := 0x12FF } [] [0x04, 0x01])
      (fun t => (t.regs.ax, t.zf, t.sf)) = some (0x1200, false, false) ∧
    afterStep (start byteFlags { zeros with ax := 0x12FF } [] [0x04, 0x01])
      (fun t => (t.regs.ax, t.zf, t.sf)) = some (0x1200, true, false) := by decide

/-- S2. -/
theorem test_sub_borrows :
    afterStep (start Config.default { zeros with ax := 5, bx := 7 } [] [0x29, 0xD8])
      (fun t => (t.regs.ax, t.zf, t.sf)) = some (0xFFFE, false, true) := by decide

/-- S9: a byte result in memory leaves the next byte. -/
theorem test_sub_immediate_from_memory :
    afterStep (start Config.default { zeros with bx := 0x03E8 } [] [0x80, 0x2F, 0x01]) (·.mem) =
      some [(1000, 0xFF)] := by decide

/-- S12 and S12n. -/
theorem test_sub_high_half :
    afterStep (start Config.default { zeros with ax := 0x0182 } [] [0x28, 0xC4])
      (fun t => (t.regs.ax, t.zf, t.sf)) = some (0x7F82, false, true) ∧
    afterStep (start byteFlags { zeros with ax := 0x0182 } [] [0x28, 0xC4])
      (fun t => (t.regs.ax, t.zf, t.sf)) = some (0x7F82, false, false) := by decide

/-- C3: a cmp with a memory operand 1 changes nothing. -/
theorem test_cmp_memory_keeps_flags :
    afterStep (launch Config.default ⟨{ zeros with ax := 5, bx := 0x03E8 }, false, true, [(1000, 5)]⟩ [0x39, 0x07])
      (fun t => (t.mem, t.zf, t.sf)) = some ([(1000, 5)], false, true) := by decide

/-- C2. -/
theorem test_cmp_registers :
    afterStep (start Config.default { zeros with ax := 3, bx := 4 } [] [0x39, 0xD8])
      (fun t => (t.regs.ax, t.zf, t.sf)) = some (3, false, true) := by decide

/-- J1, J2: taken to the end of the stream, and not taken. -/
theorem test_jnz :
    afterStep (start Config.default zeros [] [0x75, 0x03, 0xB8, 0x01, 0x00]) (·.pc) = some 5 ∧
    afterStep (launch Config.default ⟨zeros, true, false, []⟩ [0x75, 0x03, 0xB8, 0x01, 0x00]) (·.pc) = some 2 := by
  decide

/-- J4, J5: the target is outside the stream. -/
theorem test_jnz_out_of_stream :
    afterStep (start Config.default zeros [] [0x75, 0x05]) (·.status) = some (.faulted (.jumpOutOfStream 7) 0) ∧
    afterStep (start Config.default zeros [] [0x75, 0xFC]) (·.status) = some (.faulted (.jumpOutOfStream (-2)) 0) := by
  decide

/-- J7: loop does not decrement `cx`. -/
theorem test_loop_is_inactive :
    afterStep (start Config.default { zeros with cx := 5 } [] [0xE2, 0xFE]) (fun t => (t.regs.cx, t.pc)) =
      some (5, 2) := by decide

/-- J6r, A11r. -/
theorem test_refused_forms :
    afterStep (start refusing zeros [] [0x74, 0x02]) (·.status) = some (.faulted (.unmodelled 0x74) 0) ∧
    afterStep (start refusing zeros [] [0x04, 0x01]) (·.status) = some (.faulted (.unmodelled 0x04) 0) := by decide

/-- F4, F6: truncated streams. -/
theorem test_truncated :
    afterStep (start Config.default zeros [] [0x8B, 0x86, 0xE8]) (·.status) = some (.faulted (.truncated 0x8B 0) 0) ∧
    afterStep (start Config.default zeros [] [0xC7, 0x06, 0xE8, 0x03, 0x01]) (·.status) =
      some (.faulted (.truncated 0xC7 0) 0) := by decide

/-- The fault codes of the table in R180. -/
theorem test_fault_codes :
    [Fault.unknownOpcode 0, .truncated 0 0, .memOutOfBounds 0 1, .jumpOutOfStream 0, .unmodelled 0].map Fault.code =
      [1, 2, 3, 4, 5] := by decide

/-- F9: no partial write. -/
theorem test_store_out_of_bounds :
    afterStep (start smallMemory { zeros with ax := 0xBEEF, bx := 0xFFFF } [] [0x89, 0x07])
      (fun t => (t.mem, t.status, t.pc)) = some ([], .faulted (.memOutOfBounds 0xFFFF 2) 0, 0) := by decide

/-- E2s: a signed displacement. -/
theorem test_signed_displacement :
    afterStep (start signed8 { zeros with bx := 0x03E8 } [(963, 0x22), (1219, 0x11)] [0x8B, 0x47, 0xDB]) (·.regs.ax) =
      some 0x22 := by decide

/-- K14, K16, K17w: the tables by mode, two word transfers, the width key. -/
theorem test_costs :
    stepCost (start Config.default { zeros with bp := 0x03E8 } [] [0x8B, 0x46, 0x00]) = some (.computed 8 9 0) ∧
    stepCost (start Config.default { zeros with bx := 0x03E8 } [] [0x01, 0x87, 0x01, 0x00]) =
      some (.computed 16 9 8) ∧
    stepCost (start widthKeyed { zeros with bx := 0x03E8 } [] [0x01, 0x47, 0x01]) = some (.computed 16 9 8) := by decide

/-- K18 and K18p: the state that addresses are resolved in. -/
theorem test_cost_state :
    stepCost (start Config.default { zeros with bx := 0x03E8 } [(1001, 1)] [0x8B, 0x9F, 0x01, 0x00]) =
      some (.computed 8 9 0) ∧
    stepCost (start preCost { zeros with bx := 0x03E8 } [(1001, 1)] [0x8B, 0x9F, 0x01, 0x00]) =
      some (.computed 8 9 4) := by decide

/-! ### Witnesses: the hypotheses of each statement can be met together, each clause at a boundary -/

/-- A run that is about to store a word at 0xFFFF. -/
def topStore : State := start Config.default { zeros with ax := 0xBEEF, bx := 0xFFFF } [] [0x89, 0x07]

/-- A run whose memory ends at 0x10000, with `bx` at its last byte. -/
def smallTop : State := start smallMemory { zeros with ax := 0xBEEF, bx := 0xFFFF } [] [0x89, 0x07]

/-- A run about to execute a jnz at index 3, with ZF clear. -/
def atJnz : State := { start Config.default zeros [] [0xB8, 0x00, 0x00, 0x75, 0xFB] with pc := 3 }

/-- A run that has ended, and a run that has faulted. -/
def endedRun : State := start Config.default zeros [] []

def faultedRun : State := (start Config.default zeros [] [0x0F]).takeFault (.unknownOpcode 0x0F)

theorem witness_DecodeOfEncode :
    (Instr.movRmImm .word (.mem (.disp16 .bp 0xFFFF)) (.imm16 0xFFFF)).wellFormed = true ∧
    (Instr.jnz 0x80).wellFormed = true := by decide

theorem witness_EncodeOfDecode :
    decode [0xC7, 0x06, 0xFF, 0xFF, 0x2C, 0x01] = .ok (.movRmImm .word (.mem (.direct 0xFFFF)) (.imm16 0x012C), []) ∧
    (0xC7 : Byte) ≠ 0x82 ∧ regField 0x06 = 0 := by decide

theorem witness_DecodeConsumesLength :
    decode [0xC7, 0x86, 0xE8, 0x03, 0x2C, 0x01, 0x90] =
      .ok (.movRmImm .word (.mem (.disp16 .bp 0x03E8)) (.imm16 0x012C), [0x90]) ∧
    decode [0x75, 0x00] = .ok (.jnz 0, []) := by decide

theorem witness_UnknownOpcodeByMap : ¬ LegalOpcode 0x06 ∧ ¬ LegalOpcode 0x84 ∧ LegalOpcode 0x05 ∧ LegalOpcode 0xE3 :=
  ⟨by decide, by decide, by decide, by decide⟩

theorem witness_ProperBeginningIsTruncated :
    let i := Instr.movRmImm .word (.mem (.disp16 .bp 0x03E8)) (.imm16 0x012C)
    (i.wellFormed = true ∧ 0 < 1 ∧ 1 < i.length ∧ 5 < i.length) ∧
    (decode [0x82, 0xC0, 0xFF] = .ok (.addRmImm .byte (.reg al) (.imm8 0xFF), []) ∧ 0 < 2 ∧
      2 < (Instr.addRmImm .byte (.reg al) (.imm8 0xFF)).length) := by decide

theorem witness_AliasEncodings :
    ((0x83 : Byte) &&& 0xFC = 0x80 ∧ regField 0b11_001_000 ∈ [1, 2, 3, 4, 6] ∧
      decode [0x83, 0b11_001_000, 0x01] = .ok (.addRmImmR1 .word (.reg ax) (.imm8 1), [])) ∧
    decode [0x82, 0xC0, 0xFF] = .ok (.addRmImm .byte (.reg al) (.imm8 0xFF), []) ∧
    decode (0xC6 :: modeByte 3 7 0 :: [5]) = .ok (.movRmImm .byte (.reg al) (.imm8 5), []) := by decide

theorem witness_ResolverModes :
    (7 : BitVec 3) ≠ 6 ∧ resolve 0 7 .word [] = some (.mem (.base .bx), []) := by decide

theorem witness_ZeroDisplacementKeepsMode :
    resolve 2 6 .byte [0, 0] = some (.mem (.disp16 .bp 0), []) ∧ resolve 3 4 .byte [] = some (.reg ah, []) := by decide

theorem witness_RegisterReadAndWrite : Slot.bx ≠ Slot.ax := by decide

theorem witness_EffectiveAddressValue :
    EaBase.bxSi ≠ EaBase.bp ∧ topStore.cfg.disp8Ext = .zero ∧ (start signed8 zeros [] []).cfg.disp8Ext = .sign := by
  decide

theorem witness_StoredWordReadsBack :
    Memory.wf topStore.mem ∧ 0xFFFF + 2 ≤ topStore.cfg.memSize ∧ Memory.wf smallTop.mem ∧
    0xFFFE + 2 ≤ smallTop.cfg.memSize := by decide

/-- A word at 0xFFFF, and a byte at the last byte of the memory, are in bounds. -/
theorem witness_in_bounds :
    EaInBounds topStore .word (.base .bx) ∧ EaInBounds smallTop .byte (.base .bx) ∧
    EaInBounds topStore .word (.direct 0xFFFF) ∧ Memory.wf topStore.mem := by
  unfold EaInBounds
  decide

/-- The bounds of MoveToRegister, AddToRegister, SubToRegister and CompareRegister: a memory and a register operand. -/
theorem witness_operands_in_bounds :
    RmInBounds topStore .word (.mem (.base .bx)) ∧ RmInBounds topStore .word (.reg bx) :=
  ⟨witness_in_bounds.1, trivial⟩

theorem witness_MovesKeepFlags :
    (∀ i ∈ [Instr.movRmR .word (.reg ax) bx, .movMemAcc .word 0xFFFF],
      (i.record 0).op = .mov) ∧
    (nextOf (execAll [Instr.movRmR .word (.reg ax) bx, .movMemAcc .word 0xFFFF] topStore)).isSome = true := by decide

theorem witness_AccumulatorArithmetic : topStore.cfg.accDest = .asRegister := by decide

theorem witness_AccumulatorRefused : (start refusing zeros [] []).cfg.accDest = .refuse := by decide

/-- ZF set; ZF clear with the least and the greatest target, 0 and `L`. -/
theorem witness_JnzBranches :
    (launch Config.default ⟨zeros, true, false, []⟩ [0x75, 0x00]).zf = true ∧
    (atJnz.zf = false ∧ ((0 : Nat) : Int) = atJnz.pc + 2 + BitVec.toInt (0xFB : Byte) ∧ 0 ≤ atJnz.stream.length) ∧
    (((5 : Nat) : Int) = atJnz.pc + 2 + BitVec.toInt (0x00 : Byte) ∧ 5 ≤ atJnz.stream.length) := by decide

/-- The targets -1 and `L + 1`. -/
theorem witness_JnzOutOfStream :
    atJnz.zf = false ∧
    ((-1 : Int) = atJnz.pc + 2 + BitVec.toInt (0xFA : Byte) ∧ (-1 : Int) < 0) ∧
    ((6 : Int) = atJnz.pc + 2 + BitVec.toInt (0x01 : Byte) ∧ (atJnz.stream.length : Int) < 6) := by decide

theorem witness_InactiveJumpsOnlyAdvance : JumpOp.loop ≠ .jnz ∧ topStore.cfg.jccMode = .noop := by decide

theorem witness_InactiveJumpsRefused :
    JumpOp.jcxz ≠ .jnz ∧ (start refusing zeros [] []).cfg.jccMode = .refuse := by decide

theorem witness_OutOfBoundsFaults :
    memoryOperand (.movRmR .word (.mem (.base .bx)) ax) = some (.base .bx) ∧
    smallTop.cfg.memSize <
      (smallTop.eaValue (.base .bx)).toNat + ((Instr.movRmR .word (.mem (.base .bx)) ax).record 0).w.bytes := by decide

theorem witness_LargeMemoryNeverOutOfBounds :
    0x10001 ≤ (start { Config.default with memSize := 0x10001 } zeros [] []).cfg.memSize := by decide

theorem witness_EveryInstructionCompletes :
    topStore.cfg = Config.default ∧ atJnz.cfg = Config.default ∧ atJnz.zf = false ∧
    0 ≤ (atJnz.pc : Int) + 2 + BitVec.toInt (0xFB : Byte) ∧
    (atJnz.pc : Int) + 2 + BitVec.toInt (0xFB : Byte) ≤ atJnz.stream.length := by decide

/-- A cmp of registers completes and changes FLAGS. -/
theorem witness_FlagWriters :
    (nextOf (exec (.cmpRmR .word (.reg ax) ax) topStore)).map (fun t => t.flags != topStore.flags) = some true := by
  decide

/-- A FLAGS byte that differs in every bit but ZF. -/
theorem witness_FlagReaders : (0xBF : Byte).getLsbD 6 = topStore.zf ∧ (0xBF : Byte) ≠ topStore.flags := by decide

/-- The store changes the byte at 0x10000. -/
theorem witness_MemoryWriters :
    (nextOf (exec (.movRmR .word (.mem (.base .bx)) ax) topStore)).map
      (fun t => Memory.read t.mem 0x10000 != Memory.read topStore.mem 0x10000) = some true := by decide

/-- A running machine with a completing instruction, with a computed cost, for each `P_COST_STATE`. -/
theorem witness_StepRunsDecoded_computed :
    let i := Instr.movRmR .word (.mem (.base .bx)) ax
    (topStore.status = .running ∧ decode (topStore.stream.drop topStore.pc) = .ok (i, []) ∧
      (nextOf (exec i topStore)).isSome = true ∧ topStore.cfg.estimatorOn = true ∧ topStore.cfg.costState = .post ∧
      cost topStore i = .computed 9 5 0) ∧
    ({ topStore with cfg := preCost }.cfg.costState = .pre ∧
      (nextOf (exec i { topStore with cfg := preCost })).isSome = true ∧
      { topStore with cfg := preCost }.cfg.estimatorOn = true) := by decide

/-- A running machine with a completing instruction whose cost is not computed. -/
theorem witness_StepRunsDecoded_not_computed :
    let s := start Config.default zeros [] [0x29, 0xD8]
    let i := Instr.subRmR .word (.reg ax) bx
    s.status = .running ∧ decode (s.stream.drop s.pc) = .ok (i, []) ∧ (nextOf (exec i s)).isSome = true ∧
      s.cfg.estimatorOn = true ∧ cost s i = .notComputed := by decide

/-- A running machine with a completing instruction and the estimator off. -/
theorem witness_StepRunsDecoded_estimator_off :
    let s := { topStore with cfg := noEstimator }
    let i := Instr.movRmR .word (.mem (.base .bx)) ax
    s.status = .running ∧ decode (s.stream.drop s.pc) = .ok (i, []) ∧ (nextOf (exec i s)).isSome = true ∧
      s.cfg.estimatorOn = false := by decide

/-- A running machine whose instruction faults. -/
theorem witness_StepRunsDecoded_fault :
    smallTop.status = .running ∧
      decode (smallTop.stream.drop smallTop.pc) = .ok (.movRmR .word (.mem (.base .bx)) ax, []) ∧
      faultOf (exec (.movRmR .word (.mem (.base .bx)) ax) smallTop) = some (.memOutOfBounds 0xFFFF 2) := by decide

theorem witness_UnknownOpcodeHalts :
    let s := start Config.default zeros [] [0x0F]
    s.status = .running ∧ s.stream[s.pc]? = some 0x0F ∧ ¬ LegalOpcode 0x0F := by
  decide

theorem witness_TruncationHalts :
    let s := start Config.default zeros [] [0x8B, 0x86, 0xE8]
    let i := Instr.movRRm .word ax (.mem (.disp16 .bp 0x03E8))
    s.status = .running ∧ i.wellFormed = true ∧ 0 < 3 ∧ 3 < i.length ∧
      s.stream.drop s.pc = (encode i).take 3 ∧ decode (s.stream.drop s.pc) = .error (.truncated 0x8B) := by decide

/-- A stream that ends inside an instruction begun by 0x82, and by 0xC7 with a nonzero `reg` field. -/
theorem witness_TruncationHalts_alias :
    (decode [0x82, 0xC0, 0xFF] = .ok (.addRmImm .byte (.reg al) (.imm8 0xFF), []) ∧ 0 < 2 ∧
      2 < (Instr.addRmImm .byte (.reg al) (.imm8 0xFF)).length ∧
      (start Config.default zeros [] [0x82, 0xC0]).stream.drop 0 = [0x82, 0xC0, 0xFF].take 2) ∧
    (decode [0xC7, 0xC8, 0x01, 0x00] = .ok (.movRmImm .word (.reg ax) (.imm16 1), []) ∧ 0 < 3 ∧
      3 < (Instr.movRmImm .word (.reg ax) (.imm16 1)).length ∧
      (start Config.default zeros [] [0xC7, 0xC8, 0x01]).stream.drop 0 = [0xC7, 0xC8, 0x01, 0x00].take 3) := by decide

/-- A running machine at the end of the stream, whose step answers `Ended`. -/
theorem witness_RunEndsAtStreamEnd :
    let s := { topStore with pc := 2 }
    s.status = .running ∧ s.pc = s.stream.length ∧ afterStep s (·.status) = some .ended := by decide

theorem witness_HaltedTakesNoStep :
    endedRun.status = .ended ∧ faultedRun.status = .faulted (.unknownOpcode 0x0F) 0 ∧
    refusalOf (step endedRun) = some .runEnded ∧ faultOf (step faultedRun) = some (.unknownOpcode 0x0F) := by decide

/-- The invariant of a running machine; with `witness_step_answers` it meets StepKeepsInvariant and
RunningAlwaysSteps. -/
theorem witness_StepKeepsInvariant : topStore.Inv ∧ topStore.status = .running := by
  refine ⟨⟨by decide, by decide, by decide, by decide, by decide, ?_, by decide, ?_⟩, rfl⟩
  · intro f p h
    cases h
  · intro e c n h
    cases h

/-- A step that completes an instruction, for the statements about every answered step. -/
theorem witness_step_answers : afterStep topStore (fun t => (t.status, t.pc)) = some (.running, 2) := by decide

/-- A step that records a fault. -/
theorem witness_FaultsArePrecise :
    afterStep smallTop (·.status) = some (.faulted (.memOutOfBounds 0xFFFF 2) 0) := by decide

/-- A step that takes a jnz backwards, and one that does not take it. -/
theorem witness_CursorMoves :
    decode (atJnz.stream.drop atJnz.pc) = .ok (.jnz 0xFB, []) ∧ atJnz.zf = false ∧ afterStep atJnz (·.pc) = some 0 ∧
    afterStep { atJnz with flags := 0x40 } (·.pc) = some 5 := by decide

/-- The first address above every store. -/
theorem witness_HighMemoryUntouched :
    0x10000 < 0x10001 ∧ afterStep topStore (fun t => Memory.read t.mem 0x10001) = some 0 := by decide

/-- Two states that differ in timing only. -/
theorem witness_TimingIsNotBehaviour :
    let t := { topStore with cyc := 7, cfg := noEstimator }
    topStore.untimed = t.untimed ∧ topStore ≠ t := by decide

/-- An image with a cell at the last byte of the memory and one past it. -/
theorem witness_LaunchImageLoads :
    let image : LaunchImage := ⟨zeros, true, false, [(0xFFFF, 1), (0x10000, 2)]⟩
    image.cells.Pairwise (fun c d => c.1 ≠ d.1) ∧ 0xFFFF < smallMemory.memSize ∧
    ¬ 0x10000 < smallMemory.memSize ∧
    (launch smallMemory image [0x90]).mem = [(0xFFFF, 1)] ∧ ([0x90] : List Byte) ≠ [] := by decide

theorem witness_CostScope :
    ((Instr.addRmImmR6 .word (.reg ax) (.imm8 1)).record 0).op = .arith .add ∧
    ((Instr.cmpAccImm .byte (.imm8 1)).record 0).op = .arith .cmp ∧
    ((Instr.jcxz 0).record 0).op = .jump .jcxz := by decide

/-- An instruction without a memory operand, for the zero cost and the zero penalty. -/
theorem witness_no_address : ∀ m, ¬ HasAddress (.movRmR .word (.reg ax) bx) m := by
  rintro m (h | h) <;> cases h

/-- An add to memory at an odd address, under each key. -/
theorem witness_MisalignmentPenalty :
    HasAddress (.addRmR .word (.mem (.disp16 .bx 2)) ax) (.disp16 .bx 2) ∧
    (topStore.eaValue (.disp16 .bx 2)).toNat % 2 = 1 ∧ topStore.cfg.penaltyKey = .dispSize ∧
    (start widthKeyed zeros [] []).cfg.penaltyKey = .operandWidth :=
  ⟨.inl rfl, by decide, by decide, by decide⟩

/-- A GRP1 row, whose pair covers two bytes; a jump; a move of an immediate to a register. -/
theorem witness_RecordFollowsBytes :
    decode [0x83, 0b11_101_000, 0x01] = .ok (.subRmImm .word (.reg ax) (.imm8 1), []) ∧
    decode [0x75, 0xFE, 0x90] = .ok (.jnz 0xFE, [0x90]) ∧
    decode [0xB8, 0x01, 0x00] = .ok (.movRImm .word ax (.imm16 1), []) := by decide

end Sys2Proof.Tests
end

section
/-! PROOFS of the statements about the state (spec/10_state.md), with the facts about the decoder's lengths and the
cursor that they need. -/

/-! ### The bytes that decoding consumes (spec/30_encoding.md R61, R62, R88) -/

namespace Sys2Proof

theorem JumpOp.instr_length (op : JumpOp) (v : Byte) : (op.instr v).length = 2 := by
  cases op <;> rfl

theorem amInstr_length (toMemory : Bool) (w : Width) (a : Word) : (amInstr toMemory w a).length = 3 := by
  cases toMemory <;> rfl

theorem aiInstr_length (op : ArithOp) (w : Width) (v : Imm) : (aiInstr op w v).length = 1 + v.length := by
  cases op <;> rfl

theorem grp1Instr_length (reg : BitVec 3) (w : Width) (e : RmOp) (v : Imm) :
    (grp1Instr reg w e v).length = 2 + e.dispLength + v.length := by
  unfold grp1Instr
  split <;> rfl

theorem rmInstr_length (op : RmFamily) (d : Bool) (w : Width) (r : RegOp) (e : RmOp) :
    (rmInstr op d w r e).length = 2 + e.dispLength := by
  unfold rmInstr
  split <;> rfl

theorem fetch8_length {bs : List Byte} {p : Byte × List Byte} (h : fetch8 bs = some p) :
    bs.length = 1 + p.2.length := by
  rw [fetch8_some h, List.length_cons, Nat.add_comm]

theorem fetch16_length {bs : List Byte} {p : Word × List Byte} (h : fetch16 bs = some p) :
    bs.length = 2 + p.2.length := by
  rw [fetch16_some h, List.length_append, wordBytes_length]

theorem fetchImm_length {w : Width} {bs : List Byte} {p : Imm × List Byte} (h : fetchImm w bs = some p) :
    bs.length = p.1.length + p.2.length := by
  rw [(fetchImm_some h).2, List.length_append, Imm.bytes_length]

theorem resolve_length {mod : BitVec 2} {rm : BitVec 3} {w : Width} {bs : List Byte} {p : RmOp × List Byte}
    (h : resolve mod rm w bs = some p) : bs.length = p.1.dispLength + p.2.length := by
  obtain ⟨-, hb, -⟩ := resolve_some h
  rw [hb, List.length_append, RmOp.dispBytes_length]

/-- The parser of a family consumes the instruction's bytes after the opcode byte (R62, R78 to R84). -/
theorem parseOperands_length {f : Family} {bs rest : List Byte} {i : Instr}
    (h : parseOperands f bs = some (i, rest)) : 1 + bs.length = i.length + rest.length := by
  cases f with
  | j op =>
    obtain ⟨v, hv, ⟨⟩⟩ := Option.map_eq_some_iff.mp h
    rw [fetch8_length hv, JumpOp.instr_length]
    omega
  | am toMemory w =>
    obtain ⟨a, ha, ⟨⟩⟩ := Option.map_eq_some_iff.mp h
    rw [fetch16_length ha, amInstr_length]
    omega
  | ai op w =>
    obtain ⟨v, hv, ⟨⟩⟩ := Option.map_eq_some_iff.mp h
    rw [fetchImm_length hv, aiInstr_length]
    omega
  | ri w r =>
    obtain ⟨v, hv, ⟨⟩⟩ := Option.map_eq_some_iff.mp h
    rw [fetchImm_length hv, Instr.length]
    omega
  | mri w =>
    obtain ⟨m, hm, h⟩ := Option.bind_eq_some_iff.mp h
    obtain ⟨e, he, h⟩ := Option.bind_eq_some_iff.mp h
    obtain ⟨v, hv, ⟨⟩⟩ := Option.map_eq_some_iff.mp h
    rw [fetch8_length hm, resolve_length he, fetchImm_length hv, Instr.length]
    omega
  | grp1 s w =>
    obtain ⟨m, hm, h⟩ := Option.bind_eq_some_iff.mp h
    obtain ⟨e, he, h⟩ := Option.bind_eq_some_iff.mp h
    obtain ⟨v, hv, ⟨⟩⟩ := Option.map_eq_some_iff.mp h
    rw [fetch8_length hm, resolve_length he, fetchImm_length hv, grp1Instr_length]
    omega
  | rm op d w =>
    obtain ⟨m, hm, h⟩ := Option.bind_eq_some_iff.mp h
    obtain ⟨e, he, ⟨⟩⟩ := Option.map_eq_some_iff.mp h
    rw [fetch8_length hm, resolve_length he, rmInstr_length]
    omega

/-- Decoding consumes exactly the length that the instruction reports, whichever encoding it read (R62, R88). -/
theorem decode_length {bs rest : List Byte} {i : Instr} (h : decode bs = .ok (i, rest)) :
    bs.length = i.length + rest.length := by
  obtain ⟨b, ops, f, rfl, -, hp⟩ := decode_ok h
  rw [List.length_cons, Nat.add_comm, parseOperands_length hp]

/-- Only jnz has the jnz tag in its record (R60, R158). -/
theorem Instr.eq_jnz_of_record_op {i : Instr} {n : Nat} (h : (i.record n).op = .jump .jnz) : ∃ v, i = .jnz v := by
  cases i with
  | jnz v => exact ⟨v, rfl⟩
  | _ => cases h

end Sys2Proof

namespace Sys2Proof.Machine

/-! ### The cursor (spec/10_state.md R28, R29) -/

/-- The cursor after an instruction that is no taken jnz (R29). -/
theorem exec_pc {i : Instr} {s t : State} (h : exec i s = .next t) (hz : ∀ v, i = .jnz v → s.zf = true) :
    t.pc = s.pc + i.length := by
  cases exec_effect h with
  | jump d n hop _ hclear =>
    obtain ⟨v, hv⟩ := Instr.eq_jnz_of_record_op hop
    rw [State.zf_setPc, hz v hv] at hclear
    cases hclear
  | _ => rfl

/-- The cursor after a taken jnz (R29, R150, R158). -/
theorem exec_jnz_taken_pc {v : Byte} {s t : State} (h : exec (.jnz v) s = .next t) (hz : s.zf = false) :
    (t.pc : Int) = (s.pc + (Instr.jnz v).length : Nat) + v.toInt := by
  rw [exec_jnz] at h
  have hj := State.execute_next h
  rw [jumpIfNotZero, State.zf_setPc, hz, if_neg Bool.false_ne_true] at hj
  obtain ⟨hnonneg, -, rfl⟩ := State.jumpTo_ok hj
  exact Int.toNat_of_nonneg hnonneg

/-- Settles O43: a completed instruction moves the cursor by the bytes decoded, and by a taken jnz's displacement. -/
theorem cursorMoves : Obligations.CursorMoves := by
  unfold Obligations.CursorMoves
  intro s t h
  obtain ⟨hrun, ⟨-, rfl⟩ | ⟨-, f, rfl⟩ | ⟨i, rest, u, hd, hx, rfl⟩⟩ := step_next h
  · exact .inl ⟨rfl, rfl⟩
  · exact .inr (.inl ⟨f, rfl, rfl⟩)
  · obtain ⟨-, -, hstatus, -⟩ := exec_bookkeeping hx
    refine .inr (.inr ⟨i, rest, ?_, hd, decode_length hd, ?_, ?_⟩)
    · rw [account_status, hstatus, hrun]
    · rintro v rfl hz
      rw [account_pc]
      exact exec_jnz_taken_pc hx hz
    · intro hz
      rw [account_pc]
      exact exec_pc hx hz

/-! ### The stream and the halt status (spec/10_state.md R30, R32) -/

/-- Settles O44: ending, faulting and completing an instruction all keep the stream. -/
theorem streamIsReadOnly : Obligations.StreamIsReadOnly := by
  unfold Obligations.StreamIsReadOnly
  intro s t h
  obtain ⟨-, ⟨-, rfl⟩ | ⟨-, f, rfl⟩ | ⟨i, rest, u, -, hx, rfl⟩⟩ := step_next h
  · rfl
  · rfl
  · obtain ⟨-, hstream, -⟩ := exec_bookkeeping hx
    rw [account_stream, hstream]

/-- Settles O39: only a running machine steps. -/
theorem haltedTakesNoStep : Obligations.HaltedTakesNoStep := by
  unfold Obligations.HaltedTakesNoStep
  intro s hhalt t h
  obtain ⟨hrun, -⟩ := step_next h
  rcases hhalt with hended | ⟨f, p, hfault⟩
  · cases hended.symm.trans hrun
  · cases hfault.symm.trans hrun

/-! ### Register reads after register writes (spec/10_state.md R22, R23) -/

/-- A write to a byte half reads back as the low byte of the value (R22, R23). -/
theorem State.readReg_writeReg_half (s : State) (i : Slot) (half : Half) (v : Word) :
    ((s.writeReg ⟨i, half, .byte⟩ v).readReg ⟨i, half, .byte⟩).toNat = v.toNat % 256 := by
  obtain ⟨hslot, -⟩ := s.writeReg_written ⟨i, half, .byte⟩ v
  rw [State.readReg_toNat]
  cases half <;> simp only [regValue, hslot, mergedValue] <;> omega

/-- A write to a byte half keeps the other half of its slot (R23). -/
theorem State.readReg_writeReg_other_half (s : State) (i : Slot) {half other : Half} (v : Word) (h : other ≠ half) :
    (s.writeReg ⟨i, half, .byte⟩ v).readReg ⟨i, other, .byte⟩ = s.readReg ⟨i, other, .byte⟩ := by
  obtain ⟨hslot, -⟩ := s.writeReg_written ⟨i, half, .byte⟩ v
  apply BitVec.eq_of_toNat_eq
  rw [State.readReg_toNat, State.readReg_toNat]
  cases half with
  | low =>
    cases other with
    | low => exact absurd rfl h
    | high =>
      simp only [regValue, hslot, mergedValue]
      omega
  | high =>
    cases other with
    | low =>
      simp only [regValue, hslot, mergedValue]
      omega
    | high => exact absurd rfl h

/-- Settles O10, from the number a register operand reads as and all that a register write does. -/
theorem registerReadAndWrite : Obligations.RegisterReadAndWrite := by
  unfold Obligations.RegisterReadAndWrite
  intro s i v
  refine ⟨rfl, s.readReg_toNat _, s.readReg_toNat _, RegFile.get_set_same _ _ _,
    s.readReg_writeReg_half i .low v, s.readReg_writeReg_other_half i v (by decide),
    s.readReg_writeReg_half i .high v, s.readReg_writeReg_other_half i v (by decide), ?_⟩
  intro half w q hq
  exact (s.writeReg_written ⟨i, half, w⟩ v).2 q hq

end Sys2Proof.Machine
end

section
/-! PROOFS of the statements about memory (spec/20_memory.md). -/

namespace Sys2Proof.Machine

/-! ### The value of an effective address (spec/20_memory.md R42 to R45) -/

/-- The model's base sum is the sum of the registers that `rm` names (R42). -/
theorem baseSum_eq_baseNumber (s : State) (b : EaBase) : baseSum s.regs b = (baseNumber s b : Int) := by
  cases b <;> rfl

/-- Truncation to 16 bits takes a sum of any sign modulo 2^16 (R43). -/
theorem toNat_ofInt_word (n : Int) : ((BitVec.ofInt 16 n).toNat : Int) = n % 65536 := by
  rw [BitVec.toNat_ofInt]
  exact Int.toNat_of_nonneg (Int.emod_nonneg n (by decide))

/-- Without a displacement the address is the base sum alone (R43). -/
theorem State.eaValue_base_toNat (s : State) (b : EaBase) :
    (s.eaValue (.base b)).toNat = baseNumber s b % 65536 := by
  rw [State.eaValue, baseSum_eq_baseNumber, BitVec.ofInt_natCast, BitVec.toNat_ofNat]

/-- A 16-bit displacement is added as a number (R43). -/
theorem State.eaValue_disp16_toNat (s : State) (b : EaBase) (d : Word) :
    (s.eaValue (.disp16 b d)).toNat = (baseNumber s b + d.toNat) % 65536 := by
  rw [State.eaValue, baseSum_eq_baseNumber, ← Int.natCast_add, BitVec.ofInt_natCast, BitVec.toNat_ofNat]

/-- Under zero extension an 8-bit displacement is added as a number (R43, R45). -/
theorem State.eaValue_disp8_toNat_of_zero (s : State) (b : EaBase) (d : Byte) (h : s.cfg.disp8Ext = .zero) :
    (s.eaValue (.disp8 b d)).toNat = (baseNumber s b + d.toNat) % 65536 := by
  rw [State.eaValue, h, disp8Value, baseSum_eq_baseNumber, ← Int.natCast_add, BitVec.ofInt_natCast,
    BitVec.toNat_ofNat]

/-- Under sign extension the sum can be negative, and wraps to the top of the 16-bit range (R43, R45). -/
theorem State.eaValue_disp8_toNat_of_sign (s : State) (b : EaBase) (d : Byte) (h : s.cfg.disp8Ext = .sign) :
    ((s.eaValue (.disp8 b d)).toNat : Int) = ((baseNumber s b : Int) + d.toInt) % 65536 := by
  rw [State.eaValue, h, disp8Value, baseSum_eq_baseNumber, toNat_ofInt_word]

/-- Settles O12, mode by mode; only the sign-extended displacement needs the sum as an integer. -/
theorem effectiveAddressValue : Obligations.EffectiveAddressValue := by
  unfold Obligations.EffectiveAddressValue
  intro s b d d'
  exact ⟨fun _ => s.eaValue_base_toNat b, s.eaValue_disp8_toNat_of_zero b d, s.eaValue_disp8_toNat_of_sign b d,
    s.eaValue_disp16_toNat b d', rfl⟩

end Sys2Proof.Machine
end

section
/-! PROOFS of the statements about the encoding (spec/30_encoding.md). -/

namespace Sys2Proof

/-! ### The resolver, one equation per mode (spec/30_encoding.md R67 to R71) -/

/-- Mode 3 is a register and reads no byte (R67). -/
@[simp] theorem resolve_register (rm : BitVec 3) (w : Width) (bs : List Byte) :
    resolve 3 rm w bs = some (.reg (regSel rm w), bs) :=
  rfl

/-- Mode 0 is a base without displacement and reads no byte (R68). -/
theorem resolve_base {rm : BitVec 3} (h : rm ≠ 6) (w : Width) (bs : List Byte) :
    resolve 0 rm w bs = some (.mem (.base (EaBase.ofCode rm)), bs) :=
  if_neg h

/-- Mode 0 with `rm = 6` reads two bytes of address, low byte first (R69). -/
@[simp] theorem resolve_direct (w : Width) (lo hi : Byte) (bs : List Byte) :
    resolve 0 6 w (lo :: hi :: bs) = some (.mem (.direct (hi ++ lo)), bs) :=
  rfl

/-- Mode 1 reads one byte of displacement (R70). -/
@[simp] theorem resolve_disp8 (rm : BitVec 3) (w : Width) (d : Byte) (bs : List Byte) :
    resolve 1 rm w (d :: bs) = some (.mem (.disp8 (EaBase.ofCode rm) d), bs) :=
  rfl

/-- Mode 2 reads two bytes of displacement, low byte first (R71). -/
@[simp] theorem resolve_disp16 (rm : BitVec 3) (w : Width) (lo hi : Byte) (bs : List Byte) :
    resolve 2 rm w (lo :: hi :: bs) = some (.mem (.disp16 (EaBase.ofCode rm) (hi ++ lo)), bs) :=
  rfl

/-- Settles O8: the selector tables are closed and computed; the resolver's clauses are its equations, mode by mode. -/
theorem resolverModes : Obligations.ResolverModes := by
  unfold Obligations.ResolverModes
  refine ⟨rfl, rfl, rfl, rfl, ?_⟩
  intro rm w lo hi bs
  exact ⟨resolve_register rm w bs, fun h => resolve_base h w bs, resolve_direct w lo hi bs, resolve_disp8 rm w lo bs,
    resolve_disp16 rm w lo hi bs⟩

end Sys2Proof
end

section
/-! PROOFS of the statements about moves (spec/40_mov.md). -/

namespace Sys2Proof

/-- The operation in an instruction's record does not depend on where the instruction stands (R60). -/
theorem Instr.record_op (i : Instr) (m n : Nat) : (i.record m).op = (i.record n).op := by
  cases i <;> rfl

end Sys2Proof

namespace Sys2Proof.Machine

/-! ### What a sequence of instructions keeps (spec/40_mov.md R110) -/

/-- A sequence completes only when its first instruction does, and the others do after it. -/
theorem execAll_cons_next {i : Instr} {is : List Instr} {s t : State} (h : execAll (i :: is) s = .next t) :
    ∃ u, exec i s = .next u ∧ execAll is u = .next t := by
  rw [execAll] at h
  split at h
  case h_1 u hu => exact ⟨u, hu, h⟩
  case h_2 => cases h
  case h_3 => cases h

/-- Only arithmetic writes the flags (R110, R122). -/
theorem Effect.flags_of_not_arith {op : OpTag} {dst : Operand} {u t : State} (h : Effect op dst u t)
    (hop : ∀ a, op ≠ .arith a) : t.flags = u.flags := by
  cases h with
  | nothing => rfl
  | register r v => exact State.writeReg_flags u r v
  | memory m w v => exact State.setMem_flags u _
  | result r w v harith => exact harith.elim (absurd · (hop .add)) (absurd · (hop .sub))
  | compare r w v harith => exact absurd harith (hop .cmp)
  | jump d n => exact State.setPc_flags u n

/-- A completed move keeps the flags (R110). -/
theorem exec_mov_flags {i : Instr} {s t : State} (hmov : (i.record 0).op = .mov) (h : exec i s = .next t) :
    t.flags = s.flags := by
  have hop : (i.record s.pc).op = .mov := (i.record_op s.pc 0).trans hmov
  have hkeep : t.flags = (s.setPc (s.pc + i.length)).flags :=
    (exec_effect h).flags_of_not_arith fun a ha => OpTag.noConfusion (hop.symm.trans ha)
  rw [hkeep, State.setPc_flags]

/-- Settles O16, by induction on the sequence: each move keeps the flags it is given. -/
theorem movesKeepFlags : Obligations.MovesKeepFlags := by
  unfold Obligations.MovesKeepFlags
  intro is s t hmov h
  induction is generalizing s with
  | nil =>
    cases h
    rfl
  | cons i is ih =>
    obtain ⟨hi, his⟩ := List.forall_mem_cons.mp hmov
    obtain ⟨u, hu, ht⟩ := execAll_cons_next h
    calc t.flags = u.flags := ih u his ht
      _ = s.flags := exec_mov_flags hi hu

end Sys2Proof.Machine
end

section
/-! PROOFS of the statements about arithmetic (spec/41_arith.md). -/

namespace Sys2Proof.Machine

/-! ### The two flags of a result as facts about its number (spec/41_arith.md R122) -/

/-- Bit 7 of a result is the top bit of its low byte. -/
theorem loByte_msb (r : Word) : (loByte r).msb = r.getLsbD 7 := by
  simp [BitVec.msb_eq_getLsbD_last, loByte]

/-- `ZF` of a byte operation under `native8` looks at the low byte. -/
theorem zeroOf_native8_byte_iff (r : Word) : zeroOf .native8 .byte r = true ↔ r.toNat % 256 = 0 := by
  rw [zeroOf, beq_iff_eq, ← BitVec.toNat_inj, loByte_toNat, BitVec.ofNat_eq_ofNat, BitVec.toNat_zero]

/-- `SF` of a byte operation under `native8` looks at the low byte. -/
theorem signOf_native8_byte_iff (r : Word) : signOf .native8 .byte r = true ↔ 128 ≤ r.toNat % 256 := by
  rw [signOf, ← loByte_msb, BitVec.msb_eq_true_iff_two_mul_ge, loByte_toNat]
  omega

/-- Only a byte operation under `native8` narrows the flags: every other one looks at all 16 bits. -/
theorem zeroOf_and_signOf_of_not_native8_byte {c : NarrowFlags} {w : Width} (h : ¬(w = .byte ∧ c = .native8))
    (r : Word) : zeroOf c w r = (r == 0) ∧ signOf c w r = r.msb := by
  cases w with
  | word => exact ⟨rfl, rfl⟩
  | byte =>
    cases c with
    | wide16 => exact ⟨rfl, rfl⟩
    | native8 => exact absurd ⟨rfl, rfl⟩ h

/-- `ZF` of every other operation compares the whole result with 0. -/
theorem zeroOf_iff_of_not_native8_byte {c : NarrowFlags} {w : Width} (h : ¬(w = .byte ∧ c = .native8)) (r : Word) :
    zeroOf c w r = true ↔ r.toNat = 0 := by
  obtain ⟨hzero, -⟩ := zeroOf_and_signOf_of_not_native8_byte h r
  rw [hzero, beq_iff_eq, ← BitVec.toNat_inj, BitVec.ofNat_eq_ofNat, BitVec.toNat_zero]

/-- `SF` of every other operation is bit 15 of the result. -/
theorem signOf_iff_of_not_native8_byte {c : NarrowFlags} {w : Width} (h : ¬(w = .byte ∧ c = .native8)) (r : Word) :
    signOf c w r = true ↔ 32768 ≤ r.toNat := by
  obtain ⟨-, hsign⟩ := zeroOf_and_signOf_of_not_native8_byte h r
  rw [hsign, BitVec.msb_eq_true_iff_two_mul_ge]
  omega

/-- `setFlags` sets both flags from the number of the result and keeps the reserved bits (R122). -/
theorem State.setFlags_flagsFrom (s : State) (w : Width) (r : Word) : FlagsFrom w r.toNat s (s.setFlags w r) := by
  rw [FlagsFrom, State.setFlags_zf, State.setFlags_sf]
  refine ⟨s.setFlags_reserved w r, ?_⟩
  split
  case isTrue h =>
    obtain ⟨rfl, hc⟩ := h
    rw [hc]
    exact ⟨zeroOf_native8_byte_iff r, signOf_native8_byte_iff r⟩
  case isFalse h =>
    exact ⟨zeroOf_iff_of_not_native8_byte h r, signOf_iff_of_not_native8_byte h r⟩

/-- Settles O11, from the numbers that the two flags are computed from; the update names no other field. -/
theorem flagUpdate : Obligations.FlagUpdate := by
  unfold Obligations.FlagUpdate
  intro s w r
  exact ⟨s.setFlags_flagsFrom w r, rfl⟩

end Sys2Proof.Machine
end

section
/-! PROOFS of the statements about the run loop and the cycle-cost estimator (spec/70_reset_and_hazards.md). -/

namespace Sys2Proof.Machine

/-! ### What the estimator computes (spec/70_reset_and_hazards.md R213 to R220) -/

/-- The forms with a base cost are the moves and the adds, every GRP1 add among them (R213, R217, R218). -/
theorem baseCost_isSome_iff (c : Config) (i : Instr) (n : Nat) :
    (baseCost c i).isSome ↔ (i.record n).op = .mov ∨ (i.record n).op = .arith .add := by
  cases i <;> simp [baseCost, Instr.record, jumpRecord]

theorem cost_of_baseCost_some {s : State} {i : Instr} {b : Nat} (h : baseCost s.cfg i = some b) :
    cost s i = .computed b (eaCost s.cfg i) (penaltyCost s i) := by
  rw [cost, h]

theorem cost_of_baseCost_none {s : State} {i : Instr} (h : baseCost s.cfg i = none) : cost s i = .notComputed := by
  rw [cost, h]

/-- Settles O53: a cost is computed exactly where there is a base cost, and the other operations are no move and no
add. -/
theorem costScope : Obligations.CostScope := by
  unfold Obligations.CostScope
  intro s i
  have hscope := baseCost_isSome_iff s.cfg i 0
  constructor
  · intro hop
    obtain ⟨b, hb⟩ := Option.isSome_iff_exists.mp (hscope.mpr hop)
    exact ⟨b, hb, cost_of_baseCost_some hb⟩
  · intro hop
    refine cost_of_baseCost_none (Option.not_isSome_iff_eq_none.mp fun hsome => ?_)
    rcases hscope.mp hsome with hcomputed | hcomputed <;> simp [hcomputed] at hop

/-- Settles O55: in the equation of each mode the displacement does not occur. -/
theorem modeChoosesCostTable : Obligations.ModeChoosesCostTable := by
  unfold Obligations.ModeChoosesCostTable
  intro c b d d'
  exact ⟨rfl, rfl, rfl⟩

/-! ### A state without its timing (spec/70_reset_and_hazards.md R223)

Every operation of the execute phase commutes with the removal of timing, because it neither reads nor writes what is
removed. -/

@[simp] theorem State.untimed_untimed (s : State) : s.untimed.untimed = s.untimed :=
  rfl

@[simp] theorem State.untimed_stream (s : State) : s.untimed.stream = s.stream :=
  rfl

@[simp] theorem State.untimed_status (s : State) : s.untimed.status = s.status :=
  rfl

@[simp] theorem State.zf_untimed (s : State) : s.untimed.zf = s.zf :=
  rfl

@[simp] theorem State.fetchBytes_untimed (s : State) : s.untimed.fetchBytes = s.fetchBytes :=
  rfl

@[simp] theorem State.jumpTarget_untimed (s : State) (v : Byte) : s.untimed.jumpTarget v = s.jumpTarget v :=
  rfl

@[simp] theorem State.eaValue_untimed (s : State) (m : Ea) : s.untimed.eaValue m = s.eaValue m := by
  cases m <;> rfl

@[simp] theorem State.immValue_untimed (s : State) (w : Width) (i : Imm) :
    s.untimed.immValue w i = s.immValue w i := by
  cases i <;> rfl

@[simp] theorem State.readLoc_untimed (s : State) (w : Width) (l : Loc) : s.untimed.readLoc w l = s.readLoc w l := by
  cases l with
  | reg r => rfl
  | acc u => rfl
  | ea m =>
    rw [State.readLoc, State.eaValue_untimed]
    rfl

@[simp] theorem State.readSource_untimed (s : State) (w : Width) (x : Source) :
    s.untimed.readSource w x = s.readSource w x := by
  cases x with
  | loc l => exact s.readLoc_untimed w l
  | imm i => exact congrArg Except.ok (s.immValue_untimed w i)

@[simp] theorem State.refusesDest_untimed (s : State) (l : Loc) : s.untimed.refusesDest l = s.refusesDest l := by
  cases l <;> rfl

theorem State.memWrite_untimed (s : State) (a : Nat) (w : Width) (v : Word) :
    s.untimed.memWrite a w v = (s.memWrite a w v).map State.untimed := by
  by_cases hb : a + w.bytes ≤ s.cfg.memSize
  · rw [State.memWrite_inside s v hb, State.memWrite_inside s.untimed v hb]
    rfl
  · have hout : s.cfg.memSize < a + w.bytes := Nat.lt_of_not_le hb
    rw [State.memWrite_outside s v hout, State.memWrite_outside s.untimed v hout]
    rfl

theorem State.writeLoc_untimed (s : State) (w : Width) (l : Loc) (v : Word) :
    s.untimed.writeLoc w l v = (s.writeLoc w l v).map State.untimed := by
  cases l with
  | reg r => rfl
  | acc u => rfl
  | ea m =>
    rw [State.writeLoc, State.eaValue_untimed]
    exact s.memWrite_untimed _ w v

theorem State.writeResult_untimed (s : State) (op : ArithOp) (w : Width) (l : Loc) (r : Word) :
    s.untimed.writeResult op w l r = (s.writeResult op w l r).map State.untimed := by
  cases op with
  | add => exact s.writeLoc_untimed w l r
  | sub => exact s.writeLoc_untimed w l r
  | cmp => rfl

theorem State.resultFlags_untimed (s : State) (w : Width) (l : Loc) (r : Word) :
    s.untimed.resultFlags w l r = (s.resultFlags w l r).untimed := by
  cases l <;> rfl

theorem State.jumpTo_untimed (s : State) (t : Int) : s.untimed.jumpTo t = (s.jumpTo t).map State.untimed := by
  unfold State.jumpTo
  rw [State.untimed_stream]
  split <;> rfl

/-! ### The bodies of the execute phase -/

/-- An instruction's body gives the same result with timing removed before it as with timing removed after it. -/
def IgnoresTiming (body : State → Except Fault State) : Prop :=
  ∀ s : State, body s.untimed = (body s).map State.untimed

theorem move_ignoresTiming (w : Width) (d : Loc) (x : Source) : IgnoresTiming (move w d x) := by
  intro s
  rw [move, move, State.readSource_untimed]
  cases s.readSource w x with
  | error f => rfl
  | ok v => exact s.writeLoc_untimed w d v

theorem arith_ignoresTiming (op : ArithOp) (b0 : Byte) (w : Width) (d : Loc) (x : Source) :
    IgnoresTiming (arith op b0 w d x) := by
  intro s
  unfold arith
  rw [State.refusesDest_untimed, State.readLoc_untimed, State.readSource_untimed]
  split
  case isTrue => rfl
  case isFalse =>
    cases s.readLoc w d with
    | error f => rfl
    | ok a =>
      cases s.readSource w x with
      | error f => rfl
      | ok b =>
        simp only [bind, Except.bind, State.writeResult_untimed]
        cases s.writeResult op w d (arithResult op a b) with
        | error f => rfl
        | ok t => exact congrArg Except.ok (t.resultFlags_untimed w d _)

theorem inactiveJump_ignoresTiming (b0 : Byte) : IgnoresTiming (inactiveJump b0) := by
  intro s
  have hmode : s.untimed.cfg.jccMode = s.cfg.jccMode := rfl
  rw [inactiveJump, inactiveJump, hmode]
  cases s.cfg.jccMode <;> rfl

theorem jumpIfNotZero_ignoresTiming (v : Byte) : IgnoresTiming (jumpIfNotZero v) := by
  intro s
  rw [jumpIfNotZero, jumpIfNotZero, State.zf_untimed, State.jumpTarget_untimed]
  cases s.zf with
  | true => rfl
  | false => exact s.jumpTo_untimed _

/-! ### Outcomes without timing -/

/-- An outcome whose next state has its timing removed. -/
def untimedOutcome : Host.Outcome State Fault Refusal → Host.Outcome State Fault Refusal
  | .next s => .next s.untimed
  | .fault f => .fault f
  | .refused r => .refused r

/-- Outcomes differ at most in timing when they are equal without it (R223). -/
theorem sameUntimed_iff (o p : Host.Outcome State Fault Refusal) :
    SameUntimed o p ↔ untimedOutcome o = untimedOutcome p := by
  cases o <;> cases p <;> simp [SameUntimed, Alike, untimedOutcome]

theorem State.execute_untimed {body : State → Except Fault State} (h : IgnoresTiming body) (i : Instr) (s : State) :
    s.untimed.execute i body = untimedOutcome (s.execute i body) := by
  have hbody : body (s.untimed.setPc (s.untimed.pc + i.length)) =
      (body (s.setPc (s.pc + i.length))).map State.untimed := h (s.setPc (s.pc + i.length))
  rw [State.execute, State.execute, hbody]
  cases body (s.setPc (s.pc + i.length)) <;> rfl

/-- No instruction reads or writes timing: each has one of the four bodies (R223). -/
theorem exec_untimed (i : Instr) (s : State) : exec i s.untimed = untimedOutcome (exec i s) := by
  cases i with
  | movRmR | movRRm | movRmImm | movAccMem | movMemAcc =>
    exact State.execute_untimed (move_ignoresTiming _ _ _) _ s
  | movRImm w d v =>
    exact State.execute_untimed (move_ignoresTiming w (.reg d) (.imm v)) (.movRImm w d v) s
  | addRmR | addRRm | addRmImm | addRmImmR1 | addRmImmR2 | addRmImmR3 | addRmImmR4 | addRmImmR6 | addAccImm
  | subRmR | subRRm | subRmImm | subAccImm | cmpRmR | cmpRRm | cmpRmImm | cmpAccImm =>
    exact State.execute_untimed (arith_ignoresTiming _ _ _ _ _) _ s
  | jnz v => exact State.execute_untimed (jumpIfNotZero_ignoresTiming v) _ s
  | jo | jno | jb | jnb | je | jbe | ja | js | jns | jp | jnp | jl | jnl | jle | jg | loopnz | loopz | loop | jcxz =>
    exact State.execute_untimed (inactiveJump_ignoresTiming _) _ s

/-! ### The step -/

/-- The end of a step writes timing only. -/
@[simp] theorem account_untimed (i : Instr) (s t : State) : (account i s t).untimed = t.untimed := by
  rw [account_frame]
  rfl

theorem State.conclude_untimed (s : State) (i : Instr) (o : Host.Outcome State Fault Refusal) :
    untimedOutcome (s.untimed.conclude i (untimedOutcome o)) = untimedOutcome (s.conclude i o) := by
  cases o with
  | next t => simp only [untimedOutcome, State.conclude, account_untimed, State.untimed_untimed]
  | fault f => rfl
  | refused r => rfl

theorem State.runOne_untimed (s : State) : untimedOutcome s.untimed.runOne = untimedOutcome s.runOne := by
  rw [State.runOne, State.runOne, State.fetchBytes_untimed]
  cases decode s.fetchBytes with
  | error e => cases e <;> rfl
  | ok p =>
    simp only [exec_untimed]
    exact s.conclude_untimed p.1 (exec p.1 s)

/-- A step does the same, timing aside, from a state without its timing (R223). -/
theorem step_untimed (s : State) : untimedOutcome (step s.untimed) = untimedOutcome (step s) := by
  cases hs : s.status with
  | running =>
    by_cases hp : s.pc = s.stream.length
    · rw [step_at_end hs hp, step_at_end (s := s.untimed) hs hp]
      rfl
    · rw [step_inside hs hp, step_inside (s := s.untimed) hs hp, State.runOne_untimed]
  | ended => rw [step, step, State.untimed_status, hs]
  | faulted f p => rw [step, step, State.untimed_status, hs]

/-- Settles O47: both steps are, timing aside, the step of the one state that the two become without their timing. -/
theorem timingIsNotBehaviour : Obligations.TimingIsNotBehaviour := by
  unfold Obligations.TimingIsNotBehaviour
  intro s t h
  rw [sameUntimed_iff]
  calc untimedOutcome (step s) = untimedOutcome (step s.untimed) := (step_untimed s).symm
    _ = untimedOutcome (step t.untimed) := by rw [h]
    _ = untimedOutcome (step t) := step_untimed t

end Sys2Proof.Machine
end

section
/-! PROOFS of the statements about decoding and encoding (spec/30_encoding.md): the family and the opcode byte of an
instruction, and the round trips. -/

namespace Sys2Proof

/-! ### Opcode bytes and families (spec/30_encoding.md R78 to R86) -/

/-- The opcode byte that says a family and its fields: the inverse of `familyOf`. -/
def Family.code : Family → Byte
  | .j op => op.code
  | .am toMemory w => (0b101000#6) ++ BitVec.ofBool toMemory ++ w.bit
  | .ai .add w => (0b0000010#7) ++ w.bit
  | .ai .sub w => (0b0010110#7) ++ w.bit
  | .ai .cmp w => (0b0011110#7) ++ w.bit
  | .mri w => (0b1100011#7) ++ w.bit
  | .ri w r => (0b1011#4) ++ w.bit ++ r
  | .grp1 s w => (0b100000#6) ++ BitVec.ofBool s ++ w.bit
  | .rm .mov d w => (0b100010#6) ++ BitVec.ofBool d ++ w.bit
  | .rm (.arith .add) d w => (0b000000#6) ++ BitVec.ofBool d ++ w.bit
  | .rm (.arith .sub) d w => (0b001010#6) ++ BitVec.ofBool d ++ w.bit
  | .rm (.arith .cmp) d w => (0b001110#6) ++ BitVec.ofBool d ++ w.bit

theorem familyOf_code (f : Family) : familyOf f.code = some f := by
  cases f with
  | j op => cases op <;> rfl
  | am toMemory w => cases toMemory <;> cases w <;> rfl
  | ai op w => cases op <;> cases w <;> rfl
  | mri w => cases w <;> rfl
  | ri w r =>
    revert r
    cases w <;> decide
  | grp1 s w => cases s <;> cases w <;> rfl
  | rm op d w =>
    cases op with
    | mov => cases d <;> cases w <;> rfl
    | arith op => cases op <;> cases d <;> cases w <;> rfl

/-- No byte is read as a family whose code it is not. -/
theorem familyOf_map_code (b : Byte) : ∀ f ∈ familyOf b, f.code = b := by
  revert b
  decide

theorem familyOf_eq_some_iff {b : Byte} {f : Family} : familyOf b = some f ↔ f.code = b :=
  ⟨fun h => familyOf_map_code b f h, fun h => h ▸ familyOf_code f⟩

/-- The opcode map of R89 shows exactly the bytes that have a family. -/
theorem familyOf_eq_none_iff (b : Byte) : familyOf b = none ↔ ¬ Machine.LegalOpcode b := by
  revert b
  decide

/-! ### The family of an instruction -/

/-- The family that reads an instruction's encoding. -/
def Instr.family : Instr → Family
  | .movRmR w _ _ => .rm .mov false w
  | .movRRm w _ _ => .rm .mov true w
  | .addRmR w _ _ => .rm (.arith .add) false w
  | .addRRm w _ _ => .rm (.arith .add) true w
  | .subRmR w _ _ => .rm (.arith .sub) false w
  | .subRRm w _ _ => .rm (.arith .sub) true w
  | .cmpRmR w _ _ => .rm (.arith .cmp) false w
  | .cmpRRm w _ _ => .rm (.arith .cmp) true w
  | .addRmImm w _ v | .addRmImmR1 w _ v | .addRmImmR2 w _ v | .addRmImmR3 w _ v | .addRmImmR4 w _ v
  | .subRmImm w _ v | .addRmImmR6 w _ v | .cmpRmImm w _ v => .grp1 (grp1S w v == 1) w
  | .movRmImm w _ _ => .mri w
  | .movRImm w r _ => .ri w r.code
  | .movAccMem w _ => .am false w
  | .movMemAcc w _ => .am true w
  | .addAccImm w _ => .ai .add w
  | .subAccImm w _ => .ai .sub w
  | .cmpAccImm w _ => .ai .cmp w
  | .jo _ => .j .jo
  | .jno _ => .j .jno
  | .jb _ => .j .jb
  | .jnb _ => .j .jnb
  | .je _ => .j .je
  | .jnz _ => .j .jnz
  | .jbe _ => .j .jbe
  | .ja _ => .j .ja
  | .js _ => .j .js
  | .jns _ => .j .jns
  | .jp _ => .j .jp
  | .jnp _ => .j .jnp
  | .jl _ => .j .jl
  | .jnl _ => .j .jnl
  | .jle _ => .j .jle
  | .jg _ => .j .jg
  | .loopnz _ => .j .loopnz
  | .loopz _ => .j .loopz
  | .loop _ => .j .loop
  | .jcxz _ => .j .jcxz

theorem ofBool_grp1S (w : Width) (v : Imm) : BitVec.ofBool (grp1S w v == 1) = grp1S w v := by
  cases w <;> cases v <;> rfl

/-- An instruction's opcode byte is its family's code. -/
theorem Instr.code_family (i : Instr) : i.family.code = i.opcode := by
  cases i with
  | addRmImm w _ v | addRmImmR1 w _ v | addRmImmR2 w _ v | addRmImmR3 w _ v | addRmImmR4 w _ v
  | subRmImm w _ v | addRmImmR6 w _ v | cmpRmImm w _ v =>
    rw [Instr.family, Family.code, ofBool_grp1S, Instr.opcode]
  | movRmR w | movRRm w | addRmR w | addRRm w | subRmR w | subRRm w | cmpRmR w | cmpRRm w =>
    cases w <;> rfl
  | movAccMem w | movMemAcc w => cases w <;> rfl
  | _ => rfl

/-- An instruction's opcode byte selects its family (R85). -/
theorem Instr.familyOf_opcode (i : Instr) : familyOf i.opcode = some i.family :=
  familyOf_eq_some_iff.mpr i.code_family

/-! ### The parsers read back what the encoder writes (spec/30_encoding.md R62, R78 to R84) -/

theorem parseOperands_rm_encode (op : RmFamily) (d : Bool) {w : Width} {r : RegOp} {e : RmOp} (rest : List Byte)
    (hr : r.wfAt w = true) (he : e.wfAt w = true) :
    parseOperands (.rm op d w) (encodeRm r.code e ++ rest) = some (rmInstr op d w r e, rest) := by
  rw [encodeRm, List.cons_append, parseOperands, fetch8, Option.bind_some, resolve_encodeRm w _ e rest he,
    regField_modeByte, regSel_code w r hr, Option.map_some]

theorem parseOperands_mri_encode (reg : BitVec 3) {w : Width} {e : RmOp} {v : Imm} (rest : List Byte)
    (he : e.wfAt w = true) (hv : v.sizedBy w = true) :
    parseOperands (.mri w) (encodeRm reg e ++ v.bytes ++ rest) = some (.movRmImm w e v, rest) := by
  rw [encodeRm, List.cons_append, List.cons_append, List.append_assoc, parseOperands, fetch8, Option.bind_some,
    resolve_encodeRm w _ e _ he, Option.bind_some, fetchImm_bytes w v rest hv, Option.map_some]

/-- A legal GRP1 immediate has the size that its `s` bit says (R75). -/
theorem sizedBy_grp1S {w : Width} {v : Imm} (h : v.grp1SizedBy w = true) :
    v.sizedBy (if grp1S w v == 1 then .byte else w) = true := by
  cases v with
  | imm8 v => cases w <;> rfl
  | imm16 v =>
    cases w with
    | byte => exact absurd h Bool.false_ne_true
    | word => rfl

theorem parseOperands_grp1_encode (reg : BitVec 3) {w : Width} {e : RmOp} {v : Imm} (rest : List Byte)
    (he : e.wfAt w = true) (hv : v.grp1SizedBy w = true) :
    parseOperands (.grp1 (grp1S w v == 1) w) (encodeRm reg e ++ v.bytes ++ rest) =
      some (grp1Instr reg w e v, rest) := by
  rw [encodeRm, List.cons_append, List.cons_append, List.append_assoc, parseOperands, fetch8, Option.bind_some,
    resolve_encodeRm w _ e _ he, Option.bind_some, fetchGrp1Imm, fetchImm_bytes _ v rest (sizedBy_grp1S hv),
    Option.map_some, regField_modeByte]

theorem parseOperands_ri_encode {w : Width} {r : RegOp} {v : Imm} (rest : List Byte) (hr : r.wfAt w = true)
    (hv : v.sizedBy w = true) :
    parseOperands (.ri w r.code) (v.bytes ++ rest) = some (.movRImm w r v, rest) := by
  rw [parseOperands, fetchImm_bytes w v rest hv, Option.map_some, regSel_code w r hr]

theorem parseOperands_ai_encode (op : ArithOp) {w : Width} {v : Imm} (rest : List Byte) (hv : v.sizedBy w = true) :
    parseOperands (.ai op w) (v.bytes ++ rest) = some (aiInstr op w v, rest) := by
  rw [parseOperands, fetchImm_bytes w v rest hv, Option.map_some]

theorem parseOperands_am_encode (toMemory : Bool) (w : Width) (a : Word) (rest : List Byte) :
    parseOperands (.am toMemory w) (wordBytes a ++ rest) = some (amInstr toMemory w a, rest) := by
  rw [parseOperands, fetch16_wordBytes, Option.map_some]

/-- A family's parser reads back the operand bytes of a well-formed instruction (R62, R78 to R84). -/
theorem parseOperands_operandBytes {i : Instr} (rest : List Byte) (h : i.wellFormed = true) :
    parseOperands i.family (i.operandBytes ++ rest) = some (i, rest) := by
  cases i with
  | movRmR w e r | addRmR w e r | subRmR w e r | cmpRmR w e r =>
    obtain ⟨he, hr⟩ := Bool.and_eq_true_iff.mp h
    exact parseOperands_rm_encode _ false rest hr he
  | movRRm w r e | addRRm w r e | subRRm w r e | cmpRRm w r e =>
    obtain ⟨hr, he⟩ := Bool.and_eq_true_iff.mp h
    exact parseOperands_rm_encode _ true rest hr he
  | addRmImm w e v | addRmImmR1 w e v | addRmImmR2 w e v | addRmImmR3 w e v | addRmImmR4 w e v
  | subRmImm w e v | addRmImmR6 w e v | cmpRmImm w e v =>
    obtain ⟨he, hv⟩ := Bool.and_eq_true_iff.mp h
    exact parseOperands_grp1_encode _ rest he hv
  | movRmImm w e v =>
    obtain ⟨he, hv⟩ := Bool.and_eq_true_iff.mp h
    exact parseOperands_mri_encode 0 rest he hv
  | movRImm w r v =>
    obtain ⟨hr, hv⟩ := Bool.and_eq_true_iff.mp h
    exact parseOperands_ri_encode rest hr hv
  | movAccMem w a => exact parseOperands_am_encode false w a rest
  | movMemAcc w a => exact parseOperands_am_encode true w a rest
  | addAccImm w v | subAccImm w v | cmpAccImm w v => exact parseOperands_ai_encode _ rest h
  | _ => rfl

/-- Settles O2: the opcode byte selects the instruction's family, and that family's parser reads the operands back. -/
theorem decodeOfEncode : Obligations.DecodeOfEncode := by
  unfold Obligations.DecodeOfEncode
  intro i rest h
  exact decode_of_parse i.familyOf_opcode (parseOperands_operandBytes rest h)

/-- Bytes written out decode to the well-formed instruction whose encoding they are. -/
theorem decode_of_eq_encode {i : Instr} {bs rest : List Byte} (h : i.wellFormed = true) (hb : bs = encode i ++ rest) :
    decode bs = .ok (i, rest) :=
  hb ▸ decodeOfEncode i rest h

/-- Settles O1: each word is the encoding of its well-formed instruction. -/
theorem writtenWordsDecode : Obligations.WrittenWordsDecode := by
  unfold Obligations.WrittenWordsDecode
  exact ⟨decode_of_eq_encode rfl rfl, decode_of_eq_encode rfl rfl, decode_of_eq_encode rfl rfl,
    decode_of_eq_encode rfl rfl, decode_of_eq_encode rfl rfl, decode_of_eq_encode rfl rfl,
    decode_of_eq_encode rfl rfl, decode_of_eq_encode rfl rfl, decode_of_eq_encode rfl rfl,
    decode_of_eq_encode rfl rfl⟩

/-! ### What a parser's answer says of the bytes it read (spec/30_encoding.md R78 to R84, R90) -/

/-- What family `f` reading `bs` as instruction `i`, with `rest` left over, says: `i` is well formed, and its own
encoding has that family and those bytes, but where two encodings are one instruction (R90): the `s` bit of a byte
operation and the `reg` field of an immediate move. -/
structure ReadsAs (f : Family) (bs : List Byte) (i : Instr) (rest : List Byte) : Prop where
  wellFormed : i.wellFormed = true
  family : f ≠ .grp1 true .byte → i.family = f
  bytes : (∀ w, f = .mri w → ∀ m ms, bs = m :: ms → regField m = 0) → bs = i.operandBytes ++ rest

section
variable {bs rest : List Byte} {w : Width} {r : RegOp} {e : RmOp} {v : Imm}

theorem JumpOp.readsAs_instr (op : JumpOp) {v : Byte} (hb : bs = v :: rest) : ReadsAs (.j op) bs (op.instr v) rest := by
  cases op <;> exact ⟨rfl, fun _ => rfl, fun _ => hb⟩

theorem readsAs_amInstr (toMemory : Bool) {a : Word} (hb : bs = wordBytes a ++ rest) :
    ReadsAs (.am toMemory w) bs (amInstr toMemory w a) rest := by
  cases toMemory <;> exact ⟨rfl, fun _ => rfl, fun _ => hb⟩

theorem readsAs_aiInstr (op : ArithOp) (hv : v.sizedBy w = true) (hb : bs = v.bytes ++ rest) :
    ReadsAs (.ai op w) bs (aiInstr op w v) rest := by
  cases op <;> exact ⟨hv, fun _ => rfl, fun _ => hb⟩

theorem readsAs_movRImm (c : BitVec 3) (hv : v.sizedBy w = true) (hb : bs = v.bytes ++ rest) :
    ReadsAs (.ri w c) bs (.movRImm w (regSel c w) v) rest := by
  refine ⟨Bool.and_eq_true_iff.mpr ⟨regSel_wf c w, hv⟩, fun _ => ?_, fun _ => hb⟩
  rw [Instr.family, regSel_code_eq]

theorem readsAs_movRmImm {m : Byte} {ms : List Byte} (he : e.wfAt w = true) (hv : v.sizedBy w = true)
    (hm : m :: ms = encodeRm (regField m) e ++ v.bytes ++ rest) :
    ReadsAs (.mri w) (m :: ms) (.movRmImm w e v) rest := by
  refine ⟨Bool.and_eq_true_iff.mpr ⟨he, hv⟩, fun _ => rfl, fun hreg => ?_⟩
  rw [hm, hreg w rfl m ms rfl, Instr.operandBytes]

/-- The `s` bit is read back from the immediate's size, but for a byte operation (R75, R90). -/
theorem grp1S_of_sizedBy {s : Bool} (hv : v.sizedBy (if s then .byte else w) = true)
    (hs : Family.grp1 s w ≠ .grp1 true .byte) : (grp1S w v == 1) = s := by
  cases s <;> cases w <;> cases v
  case true.byte.imm8 | true.byte.imm16 => exact absurd rfl hs
  case false.byte.imm16 | false.word.imm8 | true.word.imm16 => exact absurd hv Bool.false_ne_true
  case false.byte.imm8 | false.word.imm16 | true.word.imm8 => rfl

theorem reg_cases (c : BitVec 3) : c = 0 ∨ c = 1 ∨ c = 2 ∨ c = 3 ∨ c = 4 ∨ c = 5 ∨ c = 6 ∨ c = 7 := by
  revert c
  decide

theorem readsAs_grp1Instr {s : Bool} (reg : BitVec 3) (he : e.wfAt w = true)
    (hs : v.sizedBy (if s then .byte else w) = true) (hv : v.grp1SizedBy w = true)
    (hb : bs = encodeRm reg e ++ v.bytes ++ rest) : ReadsAs (.grp1 s w) bs (grp1Instr reg w e v) rest := by
  have hwf : (e.wfAt w && v.grp1SizedBy w) = true := Bool.and_eq_true_iff.mpr ⟨he, hv⟩
  have hf : Family.grp1 s w ≠ .grp1 true .byte → Family.grp1 (grp1S w v == 1) w = .grp1 s w :=
    fun h => by rw [grp1S_of_sizedBy hs h]
  rcases reg_cases reg with rfl | rfl | rfl | rfl | rfl | rfl | rfl | rfl <;> exact ⟨hwf, hf, fun _ => hb⟩

theorem readsAs_rmInstr (op : RmFamily) (d : Bool) (hr : r.wfAt w = true) (he : e.wfAt w = true)
    (hb : bs = encodeRm r.code e ++ rest) : ReadsAs (.rm op d w) bs (rmInstr op d w r e) rest := by
  have hre : (r.wfAt w && e.wfAt w) = true := Bool.and_eq_true_iff.mpr ⟨hr, he⟩
  have her : (e.wfAt w && r.wfAt w) = true := Bool.and_eq_true_iff.mpr ⟨he, hr⟩
  cases op with
  | mov =>
    cases d with
    | false => exact ⟨her, fun _ => rfl, fun _ => hb⟩
    | true => exact ⟨hre, fun _ => rfl, fun _ => hb⟩
  | arith op =>
    cases op <;> cases d
    case add.false | sub.false | cmp.false => exact ⟨her, fun _ => rfl, fun _ => hb⟩
    case add.true | sub.true | cmp.true => exact ⟨hre, fun _ => rfl, fun _ => hb⟩

end

/-- All that a family's parser can answer (R78 to R84). -/
theorem readsAs_of_parseOperands {f : Family} {bs rest : List Byte} {i : Instr}
    (h : parseOperands f bs = some (i, rest)) : ReadsAs f bs i rest := by
  cases f with
  | j op =>
    obtain ⟨v, hv, ⟨⟩⟩ := Option.map_eq_some_iff.mp h
    exact op.readsAs_instr (fetch8_some hv)
  | am toMemory w =>
    obtain ⟨a, ha, ⟨⟩⟩ := Option.map_eq_some_iff.mp h
    exact readsAs_amInstr toMemory (fetch16_some ha)
  | ai op w =>
    obtain ⟨v, hv, ⟨⟩⟩ := Option.map_eq_some_iff.mp h
    obtain ⟨hsize, hb⟩ := fetchImm_some hv
    exact readsAs_aiInstr op hsize hb
  | ri w c =>
    obtain ⟨v, hv, ⟨⟩⟩ := Option.map_eq_some_iff.mp h
    obtain ⟨hsize, hb⟩ := fetchImm_some hv
    exact readsAs_movRImm c hsize hb
  | mri w =>
    obtain ⟨m, hm, h⟩ := Option.bind_eq_some_iff.mp h
    obtain ⟨e, he, h⟩ := Option.bind_eq_some_iff.mp h
    obtain ⟨v, hv, ⟨⟩⟩ := Option.map_eq_some_iff.mp h
    obtain ⟨hwf, hb⟩ := encodeRm_of_resolve he
    obtain ⟨hsize, hi⟩ := fetchImm_some hv
    rw [fetch8_some hm]
    exact readsAs_movRmImm hwf hsize (by rw [hb, hi, List.append_assoc])
  | grp1 s w =>
    obtain ⟨m, hm, h⟩ := Option.bind_eq_some_iff.mp h
    obtain ⟨e, he, h⟩ := Option.bind_eq_some_iff.mp h
    obtain ⟨v, hv, ⟨⟩⟩ := Option.map_eq_some_iff.mp h
    obtain ⟨hwf, hb⟩ := encodeRm_of_resolve he
    obtain ⟨hsize, hlegal, hi⟩ := fetchGrp1Imm_some hv
    rw [fetch8_some hm]
    exact readsAs_grp1Instr _ hwf hsize hlegal (by rw [hb, hi, List.append_assoc])
  | rm op d w =>
    obtain ⟨m, hm, h⟩ := Option.bind_eq_some_iff.mp h
    obtain ⟨e, he, ⟨⟩⟩ := Option.map_eq_some_iff.mp h
    obtain ⟨hwf, hb⟩ := encodeRm_of_resolve he
    rw [fetch8_some hm]
    exact readsAs_rmInstr op d (regSel_wf _ w) hwf (by rw [hb, regSel_code_eq])

/-- Settles O3: the bytes that a family read are the instruction's own, but where R90 makes two encodings one
instruction. -/
theorem encodeOfDecode : Obligations.EncodeOfDecode := by
  unfold Obligations.EncodeOfDecode
  intro b bs i rest h hb hreg
  obtain ⟨_, _, f, ⟨⟩, hf, hp⟩ := decode_ok h
  have hcode : f.code = b := familyOf_eq_some_iff.mp hf
  have hread := readsAs_of_parseOperands hp
  have hfamily : i.family = f := hread.family (by rintro rfl; exact hb hcode.symm)
  have hops : bs = i.operandBytes ++ rest := hread.bytes (by
    rintro w rfl
    exact hreg (by cases w <;> simp [← hcode, Family.code, Width.bit]))
  rw [encode, ← i.code_family, hfamily, hcode, List.cons_append, ← hops]
end Sys2Proof
end

section
/-! PROOFS of the statements about what the decoder consumes, what it rejects and what it reads alike
(spec/30_encoding.md). -/

namespace Sys2Proof

/-! ### How a byte of a known family decodes -/

theorem decode_eq_ok_iff {b : Byte} {bs : List Byte} {f : Family} {p : Instr × List Byte} (hf : familyOf b = some f) :
    decode (b :: bs) = .ok p ↔ parseOperands f bs = some p := by
  cases hp : parseOperands f bs with
  | none => simp [decode_truncated hf hp]
  | some q => simp [decode_of_parse hf hp]

/-- The three answers to a byte sequence (R86, R87, R90). -/
theorem decode_cons_cases (b : Byte) (bs : List Byte) :
    (∃ p, decode (b :: bs) = .ok p) ∨ (familyOf b = none ∧ decode (b :: bs) = .error (.unknownOpcode b)) ∨
      decode (b :: bs) = .error (.truncated b) := by
  cases hf : familyOf b with
  | none => exact .inr (.inl ⟨rfl, decode_unknown bs hf⟩)
  | some f =>
    cases hp : parseOperands f bs with
    | none => exact .inr (.inr (decode_truncated hf hp))
    | some p => exact .inl ⟨p, decode_of_parse hf hp⟩

/-! ### Parsers read a beginning of their bytes (spec/30_encoding.md R61, R87) -/

/-- A parser's answer depends on the bytes that it consumes only: the bytes after them are handed back as they are. -/
def ReadsPrefix {α : Type} (p : List Byte → Option (α × List Byte)) : Prop :=
  ∀ bs x rest, p bs = some (x, rest) → ∃ used, bs = used ++ rest ∧ ∀ more, p (used ++ more) = some (x, more)

theorem readsPrefix_pure {α : Type} (x : α) : ReadsPrefix fun bs => some (x, bs) := by
  rintro bs _ _ ⟨⟩
  exact ⟨[], rfl, fun _ => rfl⟩

theorem readsPrefix_fetch8 : ReadsPrefix fetch8 :=
  fun _ b _ h => ⟨[b], fetch8_some h, fun _ => rfl⟩

theorem readsPrefix_fetch16 : ReadsPrefix fetch16 :=
  fun _ v _ h => ⟨wordBytes v, fetch16_some h, fetch16_wordBytes v⟩

theorem ReadsPrefix.bind {α β : Type} {p : List Byte → Option (α × List Byte)}
    {q : α → List Byte → Option (β × List Byte)} (hp : ReadsPrefix p) (hq : ∀ x, ReadsPrefix (q x)) :
    ReadsPrefix fun bs => (p bs).bind fun x => q x.1 x.2 := by
  intro bs y rest h
  obtain ⟨⟨x, mid⟩, hx, hy⟩ := Option.bind_eq_some_iff.mp h
  obtain ⟨used, rfl, hused⟩ := hp bs x mid hx
  obtain ⟨used', rfl, hused'⟩ := hq x mid y rest hy
  refine ⟨used ++ used', (List.append_assoc _ _ _).symm, fun more => ?_⟩
  simp only [List.append_assoc, hused, hused', Option.bind_some]

theorem ReadsPrefix.map {α β : Type} {p : List Byte → Option (α × List Byte)} (hp : ReadsPrefix p) (g : α → β) :
    ReadsPrefix fun bs => (p bs).map fun x => (g x.1, x.2) := by
  intro bs y rest h
  obtain ⟨⟨x, mid⟩, hx, ⟨⟩⟩ := Option.map_eq_some_iff.mp h
  obtain ⟨used, rfl, hused⟩ := hp bs x mid hx
  exact ⟨used, rfl, fun more => by simp only [hused, Option.map_some]⟩

theorem readsPrefix_resolve (mod : BitVec 2) (rm : BitVec 3) (w : Width) : ReadsPrefix (resolve mod rm w) := by
  rcases mod_cases mod with rfl | rfl | rfl | rfl
  · by_cases hrm : rm = 6
    · subst hrm
      exact readsPrefix_fetch16.map fun a => RmOp.mem (.direct a)
    · have hbase : resolve 0 rm w = fun bs => some (.mem (.base (EaBase.ofCode rm)), bs) :=
        funext (resolve_base hrm w)
      exact hbase ▸ readsPrefix_pure _
  · exact readsPrefix_fetch8.map fun d => RmOp.mem (.disp8 (EaBase.ofCode rm) d)
  · exact readsPrefix_fetch16.map fun d => RmOp.mem (.disp16 (EaBase.ofCode rm) d)
  · exact readsPrefix_pure _

theorem readsPrefix_fetchImm (w : Width) : ReadsPrefix (fetchImm w) := by
  cases w with
  | byte => exact readsPrefix_fetch8.map Imm.imm8
  | word => exact readsPrefix_fetch16.map Imm.imm16

theorem readsPrefix_parseOperands (f : Family) : ReadsPrefix (parseOperands f) := by
  cases f with
  | j op => exact readsPrefix_fetch8.map op.instr
  | am toMemory w => exact readsPrefix_fetch16.map (amInstr toMemory w)
  | ai op w => exact (readsPrefix_fetchImm w).map (aiInstr op w)
  | ri w r => exact (readsPrefix_fetchImm w).map (Instr.movRImm w (regSel r w))
  | mri w =>
    exact readsPrefix_fetch8.bind fun m => (readsPrefix_resolve (modField m) (rmField m) w).bind fun e =>
      (readsPrefix_fetchImm w).map (Instr.movRmImm w e)
  | grp1 s w =>
    exact readsPrefix_fetch8.bind fun m => (readsPrefix_resolve (modField m) (rmField m) w).bind fun e =>
      (readsPrefix_fetchImm (if s then .byte else w)).map (grp1Instr (regField m) w e)
  | rm op d w =>
    exact readsPrefix_fetch8.bind fun m => (readsPrefix_resolve (modField m) (rmField m) w).map
      (rmInstr op d w (regSel (regField m) w))

/-! ### Lengths (spec/30_encoding.md R62, R88) -/

open Laws.EncodeLength in
/-- Every instruction is 2 to 6 bytes long, as its encoding is (R62). -/
theorem Instr.encode_length (i : Instr) : Statement i := by
  cases i with
  | movRmR | movRRm | addRmR | addRRm | subRmR | subRRm | cmpRmR | cmpRRm => exact of_rm rfl rfl
  | addRmImm | addRmImmR1 | addRmImmR2 | addRmImmR3 | addRmImmR4 | subRmImm | addRmImmR6 | cmpRmImm | movRmImm =>
    exact of_rm_imm rfl rfl
  | movRImm | addAccImm | subAccImm | cmpAccImm => exact of_imm rfl rfl
  | movAccMem | movMemAcc => exact of_address rfl rfl
  | _ => exact of_rel rfl rfl

/-- Settles O4: the parser answers a well-formed instruction and consumes a beginning as long as the instruction. -/
theorem decodeConsumesLength : Obligations.DecodeConsumesLength := by
  unfold Obligations.DecodeConsumesLength
  intro bs i rest h
  have hlength := decode_length h
  obtain ⟨b, ops, f, rfl, hf, hp⟩ := decode_ok h
  obtain ⟨used, rfl, -⟩ := readsPrefix_parseOperands f ops i rest hp
  obtain ⟨-, hmin, hmax⟩ := i.encode_length
  refine ⟨(readsAs_of_parseOperands hp).wellFormed, b :: used, rfl, ?_, hmin, hmax⟩
  rw [List.length_cons, List.length_append] at hlength
  rw [List.length_cons]
  omega

/-! ### Rejected bytes (spec/30_encoding.md R61, R86, R89) -/

/-- Settles O5: the bytes without a family are those that the opcode map leaves out. -/
theorem unknownOpcodeByMap : Obligations.UnknownOpcodeByMap := by
  unfold Obligations.UnknownOpcodeByMap
  intro b bs
  rw [← familyOf_eq_none_iff]
  refine ⟨fun h => ?_, decode_unknown bs⟩
  rcases decode_cons_cases b bs with ⟨p, hp⟩ | ⟨hnone, -⟩ | htrunc
  · rw [hp] at h
    cases h
  · exact hnone
  · rw [htrunc] at h
    cases h

/-- Fewer bytes than the instruction has are a truncated stream: an answer would be that of the whole. -/
theorem decode_take_truncated {b : Byte} {bs rest : List Byte} {i : Instr} {n : Nat}
    (h : decode (b :: bs) = .ok (i, rest)) (hpos : 0 < n) (hlt : n < i.length) :
    decode ((b :: bs).take n) = .error (.truncated b) := by
  obtain ⟨k, rfl⟩ : ∃ k, n = k + 1 := ⟨n - 1, by omega⟩
  obtain ⟨_, _, f, ⟨⟩, hf, hp⟩ := decode_ok h
  rw [List.take_succ_cons]
  cases hq : parseOperands f (bs.take k) with
  | none => exact decode_truncated hf hq
  | some q =>
    obtain ⟨j, rest'⟩ := q
    obtain ⟨used, hused, hmore⟩ := readsPrefix_parseOperands f _ j rest' hq
    have hwhole : used ++ (rest' ++ bs.drop k) = bs := by
      rw [← List.append_assoc, ← hused, List.take_append_drop]
    have hj := hmore (rest' ++ bs.drop k)
    rw [hwhole, hp] at hj
    obtain ⟨rfl, -⟩ := Prod.mk.inj (Option.some.inj hj)
    have hlength := parseOperands_length hq
    have htake := List.length_take_le k bs
    omega

/-- Settles O6: the encoder's bytes are one of the encodings of the second clause. -/
theorem properBeginningIsTruncated : Obligations.ProperBeginningIsTruncated := by
  unfold Obligations.ProperBeginningIsTruncated
  refine ⟨fun i n hwf hpos hlt => ?_, fun b bs i rest n h hpos hlt => decode_take_truncated h hpos hlt⟩
  exact decode_take_truncated (decode_of_eq_encode hwf (List.append_nil _).symm) hpos hlt

/-! ### Two encodings of one instruction (spec/30_encoding.md R79, R81, R90) -/

theorem familyOf_grp1 (b : Byte) :
    b &&& 0xFC = 0x80 → familyOf b = some (.grp1 (b.getLsbD 1) (.ofBit (b.getLsbD 0))) := by
  revert b
  decide

/-- Every `reg` value but 101 and 111 selects an ADD (R79). -/
theorem grp1Instr_op_add {reg : BitVec 3} (h : reg ∈ [1, 2, 3, 4, 6]) (w : Width) (e : RmOp) (v : Imm) (n : Nat) :
    ((grp1Instr reg w e v).record n).op = .arith .add := by
  simp only [List.mem_cons, List.not_mem_nil, or_false] at h
  rcases h with rfl | rfl | rfl | rfl | rfl <;> rfl

theorem parseOperands_grp1_op_add {s : Bool} {w : Width} {m : Byte} {bs rest : List Byte} {i : Instr}
    (hreg : regField m ∈ [1, 2, 3, 4, 6]) (h : parseOperands (.grp1 s w) (m :: bs) = some (i, rest)) (n : Nat) :
    (i.record n).op = .arith .add := by
  rw [parseOperands, fetch8, Option.bind_some] at h
  obtain ⟨e, -, h⟩ := Option.bind_eq_some_iff.mp h
  obtain ⟨v, -, ⟨⟩⟩ := Option.map_eq_some_iff.mp h
  exact grp1Instr_op_add hreg w e.1 v.1 n

/-- A byte operation has a one-byte immediate whatever its `s` bit (R75). -/
theorem parseOperands_grp1_byte (s : Bool) : parseOperands (.grp1 s .byte) = parseOperands (.grp1 false .byte) := by
  cases s <;> rfl

/-- The `reg` field of an immediate move is ignored (R81). -/
theorem parseOperands_mri_reg (w : Width) (mod : BitVec 2) (reg reg' rm : BitVec 3) (bs : List Byte) :
    parseOperands (.mri w) (modeByte mod reg rm :: bs) = parseOperands (.mri w) (modeByte mod reg' rm :: bs) := by
  simp only [parseOperands, fetch8, Option.bind_some, modField_modeByte, rmField_modeByte]

/-- Settles O7: the two encodings have parsers that ignore what tells them apart. -/
theorem aliasEncodings : Obligations.AliasEncodings := by
  unfold Obligations.AliasEncodings
  refine ⟨fun b bs => ?_, fun b m bs i rest hb hreg h => ?_, fun bs p => ?_, fun b mod reg rm bs hb => ?_⟩
  · exact (decode_cons_cases b bs).imp_right (Or.imp_left And.right)
  · exact parseOperands_grp1_op_add hreg ((decode_eq_ok_iff (familyOf_grp1 b hb)).mp h) 0
  · rw [decode_eq_ok_iff (f := .grp1 true .byte) rfl, decode_eq_ok_iff (f := .grp1 false .byte) rfl,
      parseOperands_grp1_byte]
  · obtain ⟨w, hf⟩ : ∃ w, familyOf b = some (.mri w) := by
      rcases hb with rfl | rfl
      · exact ⟨.byte, rfl⟩
      · exact ⟨.word, rfl⟩
    simp only [decode, hf, parseOperands_mri_reg w mod reg 0 rm bs]

/-! ### The resolver's modes (spec/30_encoding.md R72) -/

/-- Settles O9, from the resolver's equations of modes 1 and 2 and from all that it can answer. -/
theorem zeroDisplacementKeepsMode : Obligations.ZeroDisplacementKeepsMode := by
  unfold Obligations.ZeroDisplacementKeepsMode
  refine ⟨fun rm w bs => resolve_disp8 rm w 0 bs, fun rm w bs => resolve_disp16 rm w 0 0 bs,
    fun mod rm w bs e rest h => ?_⟩
  obtain ⟨-, -, hmod, -⟩ := resolve_some h
  exact hmod
end Sys2Proof
end

section
/-! PROOFS of the statement about the record and the opcode table (spec/30_encoding.md R60, spec/opcode_table.json). -/

namespace Sys2Proof

open Machine

/-! ### Rows of the opcode table as patterns of a 16-bit word (spec/INDEX.md) -/

/-- `AND` works byte by byte. -/
theorem land_two_bytes (a b : Nat) {c d : Nat} (hc : c < 256) (hd : d < 256) :
    (a * 256 + c) &&& (b * 256 + d) = (a &&& b) * 256 + (c &&& d) := by
  have hcd : c &&& d < 2 ^ 8 := Nat.and_lt_two_pow c hd
  apply Nat.eq_of_testBit_eq
  intro k
  rw [Nat.testBit_and, Nat.mul_comm a, Nat.mul_comm b, Nat.mul_comm (a &&& b),
    Nat.testBit_two_pow_mul_add (i := 8) a hc, Nat.testBit_two_pow_mul_add (i := 8) b hd,
    Nat.testBit_two_pow_mul_add (i := 8) _ hcd]
  split <;> rw [Nat.testBit_and]

/-- The mask of a row on the word that the first two bytes make. -/
def wordMask (row : TableRow) : Nat :=
  if row.nbits = 8 then row.mask * 256 else row.mask

/-- The value of a row on the word that the first two bytes make. -/
def wordValue (row : TableRow) : Nat :=
  if row.nbits = 8 then row.value * 256 else row.value

/-- A row of either size selects two bytes by the word that they make. -/
theorem selects_iff_word (row : TableRow) (b m : Byte) (ms : List Byte) :
    row.selects (b :: m :: ms) ↔ (b.toNat * 256 + m.toNat) &&& wordMask row = wordValue row := by
  unfold TableRow.selects tableNumber wordMask wordValue
  by_cases h : row.nbits = 8
  · have hand := land_two_bytes b.toNat row.mask m.isLt (d := 0) (by decide)
    rw [Nat.and_zero, Nat.add_zero, Nat.add_zero] at hand
    simp only [h, if_true, Option.map_some, Option.some.injEq, hand]
    omega
  · simp only [h, if_false, Option.map_some, Option.some.injEq]

/-- Two different rows disagree on a bit that both fix. -/
theorem opcodeTable_disagree : ∀ p ∈ opcodeTable, ∀ q ∈ opcodeTable,
    wordValue p &&& wordMask q = wordValue q &&& wordMask p → p = q := by
  decide

theorem opcodeTable_form_injective : ∀ p ∈ opcodeTable, ∀ q ∈ opcodeTable, p.form = q.form → p = q := by
  decide

/-- No bytes select two rows. -/
theorem eq_of_selects {p q : TableRow} (hp : p ∈ opcodeTable) (hq : q ∈ opcodeTable) {b m : Byte} {ms : List Byte}
    (hps : p.selects (b :: m :: ms)) (hqs : q.selects (b :: m :: ms)) : p = q := by
  rw [selects_iff_word] at hps hqs
  refine opcodeTable_disagree p hp q hq ?_
  rw [← hps, ← hqs, Nat.land_assoc, Nat.land_assoc, Nat.land_comm (wordMask p)]

/-- Of the rows, those that bytes select are those with the form of any one that they select. -/
theorem selects_iff_form {p : TableRow} (hp : p ∈ opcodeTable) {b m : Byte} {ms : List Byte}
    (hps : p.selects (b :: m :: ms)) : ∀ q ∈ opcodeTable, q.selects (b :: m :: ms) ↔ q.form = p.form := by
  intro q hq
  constructor
  · intro hqs
    rw [eq_of_selects hq hp hqs hps]
  · intro hform
    rwa [opcodeTable_form_injective q hq p hp hform]

/-! ### The row of a family (spec/30_encoding.md R78 to R84) -/

/-- The row name that the `reg` field of a GRP1 mode byte selects (R79). -/
def grp1Form (reg : BitVec 3) : Form :=
  match reg.toNat with
  | 0 => .ADD_RM_IMM
  | 1 => .ADD_RM_IMM_R1
  | 2 => .ADD_RM_IMM_R2
  | 3 => .ADD_RM_IMM_R3
  | 4 => .ADD_RM_IMM_R4
  | 5 => .SUB_RM_IMM
  | 6 => .ADD_RM_IMM_R6
  | _ => .CMP_RM_IMM

/-- The row of a family whose mode byte, if it has one, has `reg` field `reg`. -/
def Family.row (reg : BitVec 3) : Family → TableRow
  | .j op => ⟨.jump op, 8, op.code.toNat, 0xFF⟩
  | .am true _ => ⟨.MOV_MEM_ACC, 8, 0xA2, 0xFE⟩
  | .am false _ => ⟨.MOV_ACC_MEM, 8, 0xA0, 0xFE⟩
  | .ai .add _ => ⟨.ADD_ACC_IMM, 8, 0x04, 0xFE⟩
  | .ai .sub _ => ⟨.SUB_ACC_IMM, 8, 0x2C, 0xFE⟩
  | .ai .cmp _ => ⟨.CMP_ACC_IMM, 8, 0x3C, 0xFE⟩
  | .mri _ => ⟨.MOV_RM_IMM, 8, 0xC6, 0xFE⟩
  | .ri _ _ => ⟨.MOV_R_IMM, 8, 0xB0, 0xF0⟩
  | .grp1 _ _ => ⟨grp1Form reg, 16, 0x8000 + 8 * reg.toNat, 0xFC38⟩
  | .rm .mov true _ => ⟨.MOV_R_RM, 8, 0x8A, 0xFE⟩
  | .rm .mov false _ => ⟨.MOV_RM_R, 8, 0x88, 0xFE⟩
  | .rm (.arith .add) true _ => ⟨.ADD_R_RM, 8, 0x02, 0xFE⟩
  | .rm (.arith .add) false _ => ⟨.ADD_RM_R, 8, 0x00, 0xFE⟩
  | .rm (.arith .sub) true _ => ⟨.SUB_R_RM, 8, 0x2A, 0xFE⟩
  | .rm (.arith .sub) false _ => ⟨.SUB_RM_R, 8, 0x28, 0xFE⟩
  | .rm (.arith .cmp) true _ => ⟨.CMP_R_RM, 8, 0x3A, 0xFE⟩
  | .rm (.arith .cmp) false _ => ⟨.CMP_RM_R, 8, 0x38, 0xFE⟩

/-- The width flag that a family's opcode byte holds; a jump or loop form has none (R60, R63, R84). -/
def Family.width : Family → Width
  | .j _ => .byte
  | .am _ w | .ai _ w | .mri w | .ri w _ | .grp1 _ w | .rm _ _ w => w

/-- Only the row of a GRP1 byte looks past the opcode byte. -/
theorem Family.grp1_or_byteRow (f : Family) :
    (∃ s w, f = .grp1 s w) ∨ (f.row 0).nbits = 8 ∧ ∀ reg, f.row reg = f.row 0 := by
  cases f with
  | grp1 s w => exact .inl ⟨s, w, rfl⟩
  | am toMemory w => cases toMemory <;> exact .inr ⟨rfl, fun _ => rfl⟩
  | ai op w => cases op <;> exact .inr ⟨rfl, fun _ => rfl⟩
  | rm op d w =>
    cases op with
    | mov => cases d <;> exact .inr ⟨rfl, fun _ => rfl⟩
    | arith op => cases op <;> cases d <;> exact .inr ⟨rfl, fun _ => rfl⟩
  | _ => exact .inr ⟨rfl, fun _ => rfl⟩

theorem row_mem_of_familyOf (b : Byte) : ∀ f ∈ familyOf b, f.row 0 ∈ opcodeTable := by
  revert b
  decide

theorem grp1Row_mem_opcodeTable (reg : BitVec 3) :
    (⟨grp1Form reg, 16, 0x8000 + 8 * reg.toNat, 0xFC38⟩ : TableRow) ∈ opcodeTable := by
  revert reg
  decide

theorem Family.row_mem (f : Family) (reg : BitVec 3) : f.row reg ∈ opcodeTable := by
  rcases f.grp1_or_byteRow with ⟨s, w, rfl⟩ | ⟨-, hrow⟩
  · exact grp1Row_mem_opcodeTable reg
  · rw [hrow]
    exact row_mem_of_familyOf f.code f (familyOf_code f)

/-- A row of one byte looks at the opcode byte only. -/
theorem selects_of_byte {row : TableRow} {b : Byte} (bs : List Byte) (hn : row.nbits = 8)
    (hv : b.toNat &&& row.mask = row.value) : row.selects (b :: bs) := by
  cases bs <;> simp [TableRow.selects, tableNumber, hn, hv]

theorem toNat_land_regMask (m : Byte) : m.toNat &&& 0x38 = 8 * (regField m).toNat := by
  revert m
  decide

/-- A GRP1 row looks at the opcode byte and at the `reg` field of the mode byte. -/
theorem Family.row_selects_grp1 (s : Bool) (w : Width) (m : Byte) (ms : List Byte) :
    ((Family.grp1 s w).row (regField m)).selects ((Family.grp1 s w).code :: m :: ms) := by
  have hcode : (Family.grp1 s w).code.toNat &&& 0xFC = 0x80 := by cases s <;> cases w <;> rfl
  have hand := land_two_bytes (Family.grp1 s w).code.toNat 0xFC m.isLt (d := 0x38) (by decide)
  rw [hcode, toNat_land_regMask] at hand
  rw [selects_iff_word]
  exact hand

/-- The opcode byte of any other family fits its row. -/
theorem byteRow_of_familyOf (b : Byte) :
    ∀ f ∈ familyOf b, (f.row 0).nbits = 8 → b.toNat &&& (f.row 0).mask = (f.row 0).value := by
  revert b
  decide

/-- The bytes that a family reads select its row. -/
theorem Family.row_selects (f : Family) (m : Byte) (ms : List Byte) :
    (f.row (regField m)).selects (f.code :: m :: ms) := by
  rcases f.grp1_or_byteRow with ⟨s, w, rfl⟩ | ⟨hbyte, hrow⟩
  · exact Family.row_selects_grp1 s w m ms
  · rw [hrow]
    exact selects_of_byte _ hbyte (byteRow_of_familyOf f.code f (familyOf_code f) hbyte)

/-! ### The record of an instruction that a family read (spec/30_encoding.md R60) -/

theorem JumpOp.instr_record (op : JumpOp) (v : Byte) (n : Nat) : (op.instr v).record n = jumpRecord op v n := by
  cases op <;> rfl

theorem Instr.record_start (i : Instr) (n : Nat) : (i.record n).start = n := by
  cases i <;> rfl

theorem Instr.record_len (i : Instr) (n : Nat) : (i.record n).len = i.length := by
  cases i <;> rfl

theorem grp1Instr_form_width (reg : BitVec 3) (w : Width) (e : RmOp) (v : Imm) (n : Nat) :
    ((grp1Instr reg w e v).record n).form = grp1Form reg ∧ ((grp1Instr reg w e v).record n).w = w := by
  rcases reg_cases reg with rfl | rfl | rfl | rfl | rfl | rfl | rfl | rfl <;> exact ⟨rfl, rfl⟩

/-- The record's form is the family's row, and its width flag is the family's. -/
theorem record_of_parseOperands {f : Family} {m : Byte} {ms rest : List Byte} {i : Instr}
    (h : parseOperands f (m :: ms) = some (i, rest)) (n : Nat) :
    (i.record n).form = (f.row (regField m)).form ∧ (i.record n).w = f.width := by
  cases f with
  | j op =>
    rw [parseOperands, fetch8, Option.map_some] at h
    cases h
    rw [JumpOp.instr_record]
    exact ⟨rfl, rfl⟩
  | am toMemory w =>
    obtain ⟨a, -, ⟨⟩⟩ := Option.map_eq_some_iff.mp h
    cases toMemory <;> exact ⟨rfl, rfl⟩
  | ai op w =>
    obtain ⟨v, -, ⟨⟩⟩ := Option.map_eq_some_iff.mp h
    cases op <;> exact ⟨rfl, rfl⟩
  | ri w r =>
    obtain ⟨v, -, ⟨⟩⟩ := Option.map_eq_some_iff.mp h
    exact ⟨rfl, rfl⟩
  | mri w =>
    rw [parseOperands, fetch8, Option.bind_some] at h
    obtain ⟨e, -, h⟩ := Option.bind_eq_some_iff.mp h
    obtain ⟨v, -, ⟨⟩⟩ := Option.map_eq_some_iff.mp h
    exact ⟨rfl, rfl⟩
  | grp1 s w =>
    rw [parseOperands, fetch8, Option.bind_some] at h
    obtain ⟨e, -, h⟩ := Option.bind_eq_some_iff.mp h
    obtain ⟨v, -, ⟨⟩⟩ := Option.map_eq_some_iff.mp h
    exact grp1Instr_form_width (regField m) w e.1 v.1 n
  | rm op d w =>
    rw [parseOperands, fetch8, Option.bind_some] at h
    obtain ⟨e, -, ⟨⟩⟩ := Option.map_eq_some_iff.mp h
    cases op with
    | mov => cases d <;> exact ⟨rfl, rfl⟩
    | arith op => cases op <;> cases d <;> exact ⟨rfl, rfl⟩

/-- The width flag that an opcode byte shows for a row: bit 0, bit 3 for a move of an immediate to a register, none for
a jump or loop form (R63, R80, R84). -/
def formWidth (b : Byte) : Form → Width
  | .jump _ => .byte
  | .MOV_R_IMM => if b.getLsbD 3 then .word else .byte
  | _ => if b.getLsbD 0 then .word else .byte

/-- The width flag of a family is that bit of its code. -/
theorem width_of_familyOf (b : Byte) : ∀ f ∈ familyOf b, f.width = formWidth b (f.row 0).form := by
  revert b
  decide

/-- Every GRP1 row has its width flag in the same bit. -/
theorem formWidth_grp1Form (b : Byte) (reg : BitVec 3) : formWidth b (grp1Form reg) = formWidth b (grp1Form 0) := by
  rcases reg_cases reg with rfl | rfl | rfl | rfl | rfl | rfl | rfl | rfl <;> rfl

theorem Family.width_eq_formWidth (f : Family) (reg : BitVec 3) : f.width = formWidth f.code (f.row reg).form := by
  rw [width_of_familyOf f.code f (familyOf_code f)]
  rcases f.grp1_or_byteRow with ⟨s, w, rfl⟩ | ⟨-, hrow⟩
  · exact (formWidth_grp1Form _ reg).symm
  · rw [hrow reg]

/-- Settles O58: the family's row is selected by the bytes and no other row is; the rest is read off the family. -/
theorem recordFollowsBytes : Obligations.RecordFollowsBytes := by
  unfold Obligations.RecordFollowsBytes
  intro b bs i rest n h
  have hlength := decode_length h
  obtain ⟨-, hmin, -⟩ := i.encode_length
  obtain ⟨_, _, f, ⟨⟩, hf, hp⟩ := decode_ok h
  obtain rfl : f.code = b := familyOf_eq_some_iff.mp hf
  cases bs with
  | nil =>
    rw [List.length_singleton] at hlength
    omega
  | cons m ms =>
    obtain ⟨hform, hwidth⟩ := record_of_parseOperands hp n
    refine ⟨?_, ⟨f.row (regField m), f.row_mem _, hform.symm⟩, i.record_start n, ?_, ?_⟩
    · rw [hform]
      exact selects_iff_form (f.row_mem _) (f.row_selects m ms)
    · rw [Instr.record_len, ← hlength, List.length_cons]
    · rw [hwidth, hform]
      exact f.width_eq_formWidth (regField m)
end Sys2Proof
end

section
/-! PROOFS of the statements about the invariant and the launch (spec/10_state.md R35, spec/70_reset_and_hazards.md R200
to R207). -/

namespace Sys2Proof.Machine

/-! ### What the effect of an instruction keeps -/

section
variable {op : OpTag} {dst : Operand} {u t : State}

theorem Effect.memory_wf (h : Effect op dst u t) (hm : Memory.wf u.mem) : Memory.wf t.mem := by
  cases h with
  | memory m w v => exact Memory.store_wf _ _ w v hm
  | _ => exact hm

/-- Stores are inside the memory, so no byte outside it is ever listed (R31, R47). -/
theorem Effect.memory_inside (h : Effect op dst u t) (hm : ∀ c ∈ u.mem, c.1 < u.cfg.memSize) :
    ∀ c ∈ t.mem, c.1 < t.cfg.memSize := by
  cases h with
  | memory m w v hop hdst hbound =>
    intro c hc
    rcases Memory.mem_store hc with hold | hnew
    · exact hm c hold
    · exact hnew.trans_le hbound
  | _ => exact hm

/-- A taken jnz goes to a cursor in the stream (R151, R184). -/
theorem Effect.cursor_in_stream (h : Effect op dst u t) (hpc : u.pc ≤ u.stream.length) :
    t.pc ≤ t.stream.length := by
  cases h with
  | jump d n hop hdst hz ht hn => exact hn
  | _ => exact hpc

theorem Effect.reservedFlags_eq (h : Effect op dst u t) : t.reservedFlags = u.reservedFlags := by
  cases h with
  | result r w v => exact State.setFlags_reserved _ w v
  | compare r w v => exact State.setFlags_reserved u w v
  | _ => rfl

end

/-! ### The invariant along a step (spec/70_reset_and_hazards.md R203 to R206) -/

theorem State.Inv.endRun {s : State} (hs : s.Inv) (hp : s.pc = s.stream.length) : s.endRun.Inv where
  memoryForm := hs.memoryForm
  memoryInside := hs.memoryInside
  cursorInStream := hs.cursorInStream
  reservedZero := hs.reservedZero
  endedAtEnd _ := hp
  faultAtCursor := nofun
  countOff := hs.countOff
  emittedCount := by rintro _ _ _ ⟨⟩

theorem State.Inv.takeFault {s : State} (hs : s.Inv) (f : Fault) : (s.takeFault f).Inv where
  memoryForm := hs.memoryForm
  memoryInside := hs.memoryInside
  cursorInStream := hs.cursorInStream
  reservedZero := hs.reservedZero
  endedAtEnd := nofun
  faultAtCursor := by
    rintro g p ⟨⟩
    rfl
  countOff := hs.countOff
  emittedCount := by rintro _ _ _ ⟨⟩

/-- The execute phase of an instruction that lies in the stream keeps the invariant. -/
theorem State.Inv.exec {i : Instr} {s t : State} (hs : s.Inv) (hrun : s.status = .running)
    (hpc : s.pc + i.length ≤ s.stream.length) (h : exec i s = .next t) : t.Inv := by
  have he := exec_effect h
  obtain ⟨hcfg, -, hstatus, hcyc, hout⟩ := exec_bookkeeping h
  rw [hrun] at hstatus
  constructor
  case memoryForm => exact he.memory_wf hs.memoryForm
  case memoryInside => exact he.memory_inside hs.memoryInside
  case cursorInStream => exact he.cursor_in_stream hpc
  case reservedZero => exact he.reservedFlags_eq.trans hs.reservedZero
  case endedAtEnd => rw [hstatus]; exact nofun
  case faultAtCursor => rw [hstatus]; exact nofun
  case countOff => rw [hcfg, hcyc]; exact hs.countOff
  case emittedCount => rw [hout, hcyc]; exact hs.emittedCount

/-- Accounting for a completed instruction keeps the invariant (R203, R222). -/
theorem State.Inv.account {s t : State} (ht : t.Inv) (i : Instr) (hcfg : t.cfg = s.cfg) : (account i s t).Inv := by
  constructor
  case memoryForm => rw [account_mem]; exact ht.memoryForm
  case memoryInside => rw [account_mem, account_cfg]; exact ht.memoryInside
  case cursorInStream => rw [account_pc, account_stream]; exact ht.cursorInStream
  case reservedZero => rw [State.reservedFlags, account_flags]; exact ht.reservedZero
  case endedAtEnd => rw [account_status, account_pc, account_stream]; exact ht.endedAtEnd
  case faultAtCursor => rw [account_status, account_pc]; exact ht.faultAtCursor
  case countOff =>
    intro hoff
    rw [account_cfg, hcfg] at hoff
    rw [account_off hoff]
    exact ht.countOff (hcfg ▸ hoff)
  case emittedCount =>
    intro e c n he htiming
    rw [account_out] at he
    obtain rfl := Option.some.inj he
    split at htiming
    · exact (Prod.mk.inj (Option.some.inj htiming)).2.symm
    · cases htiming

/-- A decoded instruction ends in the stream. -/
theorem pc_add_length_le_of_decode {s : State} {i : Instr} {rest : List Byte}
    (h : decode s.fetchBytes = .ok (i, rest)) : s.pc + i.length ≤ s.stream.length := by
  have hlength := decode_length h
  obtain ⟨-, hmin, -⟩ := i.encode_length
  rw [State.fetchBytes, List.length_drop] at hlength
  omega

/-- Settles O48: ending the run, recording a fault, and executing and accounting each keep the invariant. -/
theorem stepKeepsInvariant : Obligations.StepKeepsInvariant := by
  unfold Obligations.StepKeepsInvariant
  intro s t hs h
  obtain ⟨hrun, ⟨hp, rfl⟩ | ⟨-, f, rfl⟩ | ⟨i, rest, u, hd, hx, rfl⟩⟩ := step_next h
  · exact hs.endRun hp
  · exact hs.takeFault f
  · obtain ⟨hcfg, -⟩ := exec_bookkeeping hx
    exact (hs.exec hrun (pc_add_length_le_of_decode hd) hx).account i hcfg

/-! ### The memory of a launch (spec/20_memory.md R58, spec/70_reset_and_hazards.md R201) -/

/-- A memory with the cells of a list written one after another. -/
def Memory.writeCells (m : Memory) (cells : List Host.Cell) : Memory :=
  cells.foldl (fun m c => Memory.write m c.1 c.2) m

theorem initialMemory_eq (memSize : Nat) (cells : List Host.Cell) :
    initialMemory memSize cells = Memory.writeCells [] (cells.filter fun c => c.1 < memSize) :=
  rfl

theorem Memory.writeCells_cons (m : Memory) (c : Host.Cell) (cells : List Host.Cell) :
    Memory.writeCells m (c :: cells) = Memory.writeCells (Memory.write m c.1 c.2) cells :=
  rfl

theorem Memory.wf_nil : Memory.wf [] :=
  ⟨List.Pairwise.nil, nofun⟩

theorem Memory.writeCells_wf {m : Memory} (cells : List Host.Cell) (h : Memory.wf m) :
    Memory.wf (Memory.writeCells m cells) := by
  induction cells generalizing m with
  | nil => exact h
  | cons c cells ih => exact ih (Memory.write_wf m c.1 c.2 h)

/-- Only cells that were listed or written are listed afterwards. -/
theorem Memory.mem_writeCells {m : Memory} {cells : List Host.Cell} {c : Host.Cell}
    (h : c ∈ Memory.writeCells m cells) : c ∈ m ∨ c ∈ cells := by
  induction cells generalizing m with
  | nil => exact .inl h
  | cons d cells ih =>
    rcases ih h with hm | hcells
    · rcases Memory.mem_write hm with hold | rfl
      · exact .inl hold
      · exact .inr List.mem_cons_self
    · exact .inr (List.mem_cons_of_mem d hcells)

theorem Memory.read_writeCells_other (m : Memory) {cells : List Host.Cell} {a : Nat} (h : ∀ c ∈ cells, c.1 ≠ a) :
    Memory.read (Memory.writeCells m cells) a = Memory.read m a := by
  induction cells generalizing m with
  | nil => rfl
  | cons d cells ih =>
    obtain ⟨hd, hcells⟩ := List.forall_mem_cons.mp h
    rw [Memory.writeCells_cons, ih _ hcells, Memory.read_write_other m d.2 hd.symm]

/-- Where no address is written twice every cell reads back. -/
theorem Memory.read_writeCells_mem {m : Memory} {cells : List Host.Cell} (hm : Memory.wf m)
    (hdistinct : cells.Pairwise fun c d => c.1 ≠ d.1) {c : Host.Cell} (hc : c ∈ cells) :
    Memory.read (Memory.writeCells m cells) c.1 = c.2 := by
  induction cells generalizing m with
  | nil => cases hc
  | cons d cells ih =>
    obtain ⟨hd, hcells⟩ := List.pairwise_cons.mp hdistinct
    rw [Memory.writeCells_cons]
    rcases List.mem_cons.mp hc with rfl | hc
    · rw [Memory.read_writeCells_other _ fun e he => (hd e he).symm, Memory.read_write_same m _ _ hm]
    · exact ih (Memory.write_wf m d.1 d.2 hm) hcells hc

theorem initialMemory_wf (memSize : Nat) (cells : List Host.Cell) : Memory.wf (initialMemory memSize cells) := by
  rw [initialMemory_eq]
  exact Memory.writeCells_wf _ Memory.wf_nil

theorem initialMemory_inside {memSize : Nat} {cells : List Host.Cell} {c : Host.Cell}
    (h : c ∈ initialMemory memSize cells) : c.1 < memSize := by
  rw [initialMemory_eq] at h
  rcases Memory.mem_writeCells h with hnil | hcell
  · cases hnil
  · exact of_decide_eq_true (List.mem_filter.mp hcell).2

theorem read_initialMemory_mem {memSize : Nat} {cells : List Host.Cell}
    (hdistinct : cells.Pairwise fun c d => c.1 ≠ d.1) {c : Host.Cell} (hc : c ∈ cells) (hlt : c.1 < memSize) :
    Memory.read (initialMemory memSize cells) c.1 = c.2 := by
  rw [initialMemory_eq]
  exact Memory.read_writeCells_mem Memory.wf_nil (hdistinct.filter _)
    (List.mem_filter.mpr ⟨hc, decide_eq_true hlt⟩)

theorem read_initialMemory_other {memSize : Nat} {cells : List Host.Cell} {a : Nat} (h : ∀ c ∈ cells, c.1 ≠ a) :
    Memory.read (initialMemory memSize cells) a = 0 := by
  rw [initialMemory_eq]
  exact Memory.read_writeCells_other [] fun c hc => h c (List.mem_filter.mp hc).1

/-! ### The launch (spec/10_state.md R35, spec/70_reset_and_hazards.md R200 to R207) -/

theorem initialStatus_nil : initialStatus [] = .ended :=
  rfl

theorem initialStatus_of_ne_nil {stream : List Byte} (h : stream ≠ []) : initialStatus stream = .running := by
  cases stream with
  | nil => exact absurd rfl h
  | cons b bs => rfl

theorem launch_reservedFlags (cfg : Config) (image : LaunchImage) (stream : List Byte) :
    (launch cfg image stream).reservedFlags = 0 :=
  putFlags_reserved 0 image.zf image.sf

/-- Settles O49: a launch has a canonical memory inside the array, and has ended only for the empty stream. -/
theorem launchMeetsInvariant : Obligations.LaunchMeetsInvariant := by
  unfold Obligations.LaunchMeetsInvariant
  intro cfg image stream
  constructor
  case memoryForm => exact initialMemory_wf cfg.memSize image.cells
  case memoryInside => exact fun c hc => initialMemory_inside hc
  case cursorInStream => exact Nat.zero_le _
  case reservedZero => exact launch_reservedFlags cfg image stream
  case endedAtEnd =>
    intro hended
    cases stream with
    | nil => rfl
    | cons b bs => cases hended
  case faultAtCursor =>
    intro f p hfault
    cases stream <;> cases hfault
  case countOff => exact fun _ => rfl
  case emittedCount => rintro _ _ _ ⟨⟩

theorem reset_eq_launch : State.reset = launch Config.default LaunchImage.zero [] :=
  rfl

/-- Settles O50: the reset state is a launch. -/
theorem resetMeetsInvariant : Obligations.ResetMeetsInvariant := by
  unfold Obligations.ResetMeetsInvariant
  rw [reset_eq_launch]
  exact launchMeetsInvariant _ _ _

/-- Settles O51: each value is a field of the reset state. -/
theorem resetValues : Obligations.ResetValues := by
  unfold Obligations.ResetValues
  refine ⟨fun i => ?_, rfl, rfl, rfl, fun _ => rfl, rfl, reset_eq_launch⟩
  cases i <;> rfl

/-- Settles O52, from what the writes of a launch's cells leave in memory. -/
theorem launchImageLoads : Obligations.LaunchImageLoads := by
  unfold Obligations.LaunchImageLoads
  intro cfg image stream hdistinct
  refine ⟨rfl, rfl, rfl, putFlags_zero _ _ _, putFlags_sign _ _ _, launch_reservedFlags cfg image stream, rfl, rfl,
    ?_, initialStatus_of_ne_nil, fun c hc hlt => read_initialMemory_mem hdistinct hc hlt,
    fun a ha => read_initialMemory_other ha⟩
  rintro rfl
  exact initialStatus_nil

end Sys2Proof.Machine
end

section
/-! PROOFS of the statements about the run loop, the halts and the emissions (spec/60_exceptions.md,
spec/70_reset_and_hazards.md section 2). -/

namespace Sys2Proof.Machine

/-! ### Steps at bytes that do not decode (spec/60_exceptions.md R181, R182) -/

theorem fetchBytes_eq_nil_iff (s : State) : s.fetchBytes = [] ↔ s.stream.length ≤ s.pc :=
  List.drop_eq_nil_iff

/-- A step inside the stream at bytes that do not decode takes the decode fault (R181, R182). -/
theorem step_of_decode_error {s : State} {e : DecodeError} (hs : s.status = .running) (hb : s.fetchBytes ≠ [])
    (h : decode s.fetchBytes = .error e) : step s = s.decodeFailure e := by
  have hp : s.pc ≠ s.stream.length := fun hp => hb ((fetchBytes_eq_nil_iff s).mpr hp.ge)
  rw [step_inside hs hp]
  simp only [State.runOne, h]

/-- A truncated instruction has its opcode byte at the cursor. -/
theorem fetchBytes_ne_nil_of_truncated {s : State} {b : Byte} (h : decode s.fetchBytes = .error (.truncated b)) :
    s.fetchBytes ≠ [] := by
  intro hnil
  rw [hnil] at h
  cases h

theorem step_of_truncated {s : State} {b : Byte} (hs : s.status = .running)
    (h : decode s.fetchBytes = .error (.truncated b)) : step s = .next (s.takeFault (.truncated b s.pc)) :=
  step_of_decode_error hs (fetchBytes_ne_nil_of_truncated h) h

/-- Settles O36: the byte at the cursor has no family. -/
theorem unknownOpcodeHalts : Obligations.UnknownOpcodeHalts := by
  unfold Obligations.UnknownOpcodeHalts
  intro s b hs hget hillegal
  have hbytes : s.fetchBytes = b :: s.stream.drop (s.pc + 1) := by
    obtain ⟨hlt, hb⟩ := List.getElem?_eq_some_iff.mp hget
    rw [State.fetchBytes, List.drop_eq_getElem_cons hlt, hb]
  have hdecode : decode s.fetchBytes = .error (.unknownOpcode b) := by
    rw [hbytes]
    exact decode_unknown _ ((familyOf_eq_none_iff b).mpr hillegal)
  exact step_of_decode_error hs (by simp [hbytes]) hdecode

/-- Settles O37: the stream from the cursor on is a proper beginning, so it decodes to Truncated. -/
theorem truncationHalts : Obligations.TruncationHalts := by
  unfold Obligations.TruncationHalts
  obtain ⟨hencoded, hbytes⟩ := properBeginningIsTruncated
  refine fun s hs => ⟨fun b h => step_of_truncated hs h, fun b bs i rest n h hpos hlt hdrop => ?_,
    fun i n hwf hpos hlt hdrop => ?_⟩
  · exact step_of_truncated hs ((congrArg decode hdrop).trans (hbytes b bs i rest n h hpos hlt))
  · exact step_of_truncated hs ((congrArg decode hdrop).trans (hencoded i n hwf hpos hlt))

/-! ### The end of the run and halted machines (spec/10_state.md R32, spec/70_reset_and_hazards.md R205) -/

/-- A completed instruction leaves the machine running. -/
theorem account_exec_running {i : Instr} {s u : State} (hs : s.status = .running) (h : exec i s = .next u) :
    (account i s u).status = .running := by
  obtain ⟨-, -, hstatus, -⟩ := exec_bookkeeping h
  rw [account_status, hstatus, hs]

/-- Settles O38: of the three kinds of step only the loop test at `L` sets `Ended`. -/
theorem runEndsAtStreamEnd : Obligations.RunEndsAtStreamEnd := by
  unfold Obligations.RunEndsAtStreamEnd
  refine ⟨fun s hs hp => step_at_end hs hp, fun s t h => ?_⟩
  obtain ⟨hs, ⟨hp, rfl⟩ | ⟨hp, f, rfl⟩ | ⟨i, rest, u, hd, hx, rfl⟩⟩ := step_next h
  · exact ⟨fun _ => hp, fun _ => rfl⟩
  · exact ⟨nofun, fun h => absurd h hp⟩
  · rw [account_exec_running hs hx]
    exact ⟨nofun, fun h => absurd h (pc_ne_length_of_decode hd)⟩

/-- Settles O40: the step looks at the halt status first. -/
theorem haltedAnswers : Obligations.HaltedAnswers := by
  unfold Obligations.HaltedAnswers
  refine fun s => ⟨fun hended => ?_, fun f p hfault => ?_⟩
  · rw [step, hended]
  · rw [step, hfault]

/-- The outcome of an execute phase always makes a next state, because no instruction is refused. -/
theorem conclude_exec_next (s : State) (i : Instr) : ∃ t, s.conclude i (exec i s) = .next t := by
  cases hx : exec i s with
  | next u => exact ⟨account i s u, rfl⟩
  | fault f => exact ⟨s.takeFault f, rfl⟩
  | refused r => exact absurd hx (exec_not_refused i s r)

/-- Settles O41: before the end of the stream there is a byte to decode, and each answer of the decoder makes a next
state. -/
theorem runningAlwaysSteps : Obligations.RunningAlwaysSteps := by
  unfold Obligations.RunningAlwaysSteps
  intro s hinv hs
  by_cases hp : s.pc = s.stream.length
  · exact ⟨s.endRun, step_at_end hs hp⟩
  · have hin := hinv.cursorInStream
    have hb : s.fetchBytes ≠ [] := fun hnil => hp (hin.antisymm ((fetchBytes_eq_nil_iff s).mp hnil))
    obtain ⟨b, bs, hcons⟩ := List.exists_cons_of_ne_nil hb
    rcases decode_cons_cases b bs with ⟨p, hd⟩ | ⟨-, hd⟩ | hd <;> rw [← hcons] at hd
    · rw [step_of_decode hs hd]
      exact conclude_exec_next s p.1
    · exact ⟨_, step_of_decode_error hs hb hd⟩
    · exact ⟨_, step_of_truncated hs hd⟩

/-- Settles O42: of the three kinds of step only a fault sets `Faulted`, and it writes the record alone. -/
theorem faultsArePrecise : Obligations.FaultsArePrecise := by
  unfold Obligations.FaultsArePrecise
  intro s t f p h hfault
  obtain ⟨hs, ⟨-, rfl⟩ | ⟨-, g, rfl⟩ | ⟨i, rest, u, -, hx, rfl⟩⟩ := step_next h
  · cases hfault
  · cases hfault
    exact ⟨rfl, rfl⟩
  · rw [account_exec_running hs hx] at hfault
    cases hfault

/-! ### What a step runs and emits (spec/00_scope.md R8, spec/70_reset_and_hazards.md R203, R214, R222) -/

/-- Only a jump or loop form has no source operand (R60, R84). -/
theorem record_src_eq_none_iff (i : Instr) (n : Nat) :
    (i.record n).src = none ↔ ∃ j, (i.record n).op = .jump j := by
  cases i <;> simp [Instr.record, jumpRecord]

/-- Settles O46: of the three kinds of step only a completed instruction emits, and it emits its own record. -/
theorem emissionPerInstruction : Obligations.EmissionPerInstruction := by
  unfold Obligations.EmissionPerInstruction
  intro s t h
  obtain ⟨hs, ⟨-, rfl⟩ | ⟨-, f, rfl⟩ | ⟨i, rest, u, hd, hx, rfl⟩⟩ := step_next h
  · exact ⟨fun _ => rfl, nofun⟩
  · exact ⟨fun _ => rfl, nofun⟩
  · refine ⟨fun hhalt => absurd (account_exec_running hs hx) hhalt, fun _ => ?_⟩
    refine ⟨i, rest, _, hd, account_out i s u, i.record_start _, ?_, record_src_eq_none_iff i _⟩
    rw [Instr.record_len]
    exact (decode_length hd).symm

/-- With the estimator on, the count grows by the total of the emitted cost (R214, R215, R222). -/
theorem account_on_timing {i : Instr} {s t : State} (h : s.cfg.estimatorOn = true) :
    (account i s t).out =
        some ⟨i.record s.pc, some (cost (costState s t) i, (account i s t).cyc)⟩ ∧
      (account i s t).cyc = t.cyc + (cost (costState s t) i).total := by
  rw [account_on h]
  exact ⟨rfl, rfl⟩

/-- Settles O35: the step concludes the execute phase by accounting for it or by taking its fault. -/
theorem stepRunsDecoded : Obligations.StepRunsDecoded := by
  unfold Obligations.StepRunsDecoded
  intro s i rest hs hd
  have hstep : step s = s.conclude i (exec i s) := step_of_decode hs hd
  refine ⟨fun t hx => ?_, fun f hx => by rw [hstep, hx]; rfl⟩
  obtain ⟨-, -, -, hcyc, -⟩ := exec_bookkeeping hx
  refine ⟨account i s t, by rw [hstep, hx]; rfl, account_frame i s t, fun hon => ?_, fun hoff => ?_⟩
  · obtain ⟨hout, hcount⟩ := account_on_timing (i := i) (t := t) hon
    rw [hcyc] at hcount
    refine ⟨_, hout, fun hpre => by rw [costState_pre t hpre], fun hpost => by rw [costState_post t hpost],
      fun hnone => ?_, fun b e p hsome => ?_⟩
    · rw [hcount, hnone, Cost.total_notComputed, Nat.add_zero]
    · rw [hcount, hsome, Cost.total_computed]
  · rw [account_off hoff]
    exact ⟨hcyc, rfl⟩

end Sys2Proof.Machine
end

section
/-! PROOFS of the statements about single instructions: moves, arithmetic and jumps (spec/40_mov.md, spec/41_arith.md,
spec/42_control.md). -/

namespace Sys2Proof.Machine

/-! ### Operand reads see the parameters, the registers and the memory only -/

section
variable {s t : State}

theorem State.eaValue_congr (hcfg : t.cfg = s.cfg) (hregs : t.regs = s.regs) (m : Ea) : t.eaValue m = s.eaValue m := by
  cases m <;> simp only [State.eaValue, hcfg, hregs]

theorem State.immValue_congr (hcfg : t.cfg = s.cfg) (w : Width) (v : Imm) : t.immValue w v = s.immValue w v := by
  cases v <;> cases w <;> simp only [State.immValue, hcfg]

theorem State.readReg_congr (hregs : t.regs = s.regs) (r : RegOp) : t.readReg r = s.readReg r := by
  simp only [State.readReg, hregs]

theorem State.memRead_congr (hcfg : t.cfg = s.cfg) (hmem : t.mem = s.mem) (a : Nat) (w : Width) :
    t.memRead a w = s.memRead a w := by
  cases s
  cases t
  cases hcfg
  cases hmem
  rfl

theorem State.readLoc_congr (hcfg : t.cfg = s.cfg) (hregs : t.regs = s.regs) (hmem : t.mem = s.mem) (w : Width)
    (l : Loc) : t.readLoc w l = s.readLoc w l := by
  cases l with
  | reg r => exact congrArg Except.ok (State.readReg_congr hregs r)
  | acc u => exact congrArg Except.ok (State.readReg_congr hregs (accReg u))
  | ea m =>
    rw [State.readLoc, State.readLoc, State.eaValue_congr hcfg hregs]
    exact State.memRead_congr hcfg hmem _ w

theorem State.readSource_congr (hcfg : t.cfg = s.cfg) (hregs : t.regs = s.regs) (hmem : t.mem = s.mem) (w : Width)
    (x : Source) : t.readSource w x = s.readSource w x := by
  cases x with
  | loc l => exact State.readLoc_congr hcfg hregs hmem w l
  | imm v => exact congrArg Except.ok (State.immValue_congr hcfg w v)

theorem State.refusesDest_congr (hcfg : t.cfg = s.cfg) (l : Loc) : t.refusesDest l = s.refusesDest l := by
  cases l <;> simp only [State.refusesDest, hcfg]

end

@[simp] theorem State.readLoc_setPc (s : State) (n : Nat) (w : Width) (l : Loc) :
    (s.setPc n).readLoc w l = s.readLoc w l :=
  State.readLoc_congr rfl rfl rfl w l

@[simp] theorem State.readSource_setPc (s : State) (n : Nat) (w : Width) (x : Source) :
    (s.setPc n).readSource w x = s.readSource w x :=
  State.readSource_congr rfl rfl rfl w x

@[simp] theorem State.refusesDest_setPc (s : State) (n : Nat) (l : Loc) :
    (s.setPc n).refusesDest l = s.refusesDest l :=
  State.refusesDest_congr rfl l

/-! ### What a source reads as (spec/40_mov.md R100, spec/30_encoding.md R76) -/

/-- The source `x` reads as the number `n` in an instruction of width `w`. -/
def SourceReads (s : State) (w : Width) (x : Source) (n : Nat) : Prop :=
  ∃ v, s.readSource w x = .ok v ∧ v.toNat = n

theorem sourceReads_reg (s : State) (w : Width) (r : RegOp) : SourceReads s w (.loc (.reg r)) (regValue s r) :=
  ⟨_, rfl, s.readReg_toNat r⟩

theorem sourceReads_rm {s : State} {w : Width} {e : RmOp} (h : RmInBounds s w e) :
    SourceReads s w (.loc (rmLoc e)) (rmValue s w e) :=
  s.readLoc_rm w e h

theorem sourceReads_ea {s : State} {w : Width} {m : Ea} (h : EaInBounds s w m) :
    SourceReads s w (.loc (.ea m)) (memValue s (s.eaValue m).toNat w) :=
  s.memRead_value h

theorem sourceReads_imm (s : State) (w : Width) (v : Imm) : SourceReads s w (.imm v) (immNumber s w v) :=
  ⟨_, rfl, s.immValue_toNat w v⟩

/-- The accumulator of a width is the low part of `ax` (R91). -/
theorem accReg_eq (w : Width) : accReg w = ⟨.ax, .low, w⟩ := by
  cases w <;> rfl

theorem sourceReads_acc (s : State) (w : Width) : SourceReads s w (.loc (.acc w)) (regValue s ⟨.ax, .low, w⟩) :=
  accReg_eq w ▸ ⟨_, rfl, s.readReg_toNat (accReg w)⟩

/-! ### Destinations that are a register (spec/40_mov.md R101, spec/41_arith.md R123) -/

/-- The location `l` is register `d`: a register operand, or the accumulator of an instruction that is not refused. -/
inductive IsRegister (s : State) : Loc → RegOp → Prop where
  | reg (d : RegOp) : IsRegister s (.reg d) d
  | acc (w : Width) : s.cfg.accDest = .asRegister → IsRegister s (.acc w) (accReg w)

section
variable {s : State} {l : Loc} {d : RegOp}

theorem IsRegister.readLoc (h : IsRegister s l d) (w : Width) : s.readLoc w l = .ok (s.readReg d) := by
  cases h <;> rfl

theorem IsRegister.writeLoc (h : IsRegister s l d) (t : State) (w : Width) (v : Word) :
    t.writeLoc w l v = .ok (t.writeReg d v) := by
  cases h <;> rfl

theorem IsRegister.resultFlags (h : IsRegister s l d) (t : State) (w : Width) (r : Word) :
    t.resultFlags w l r = t.setFlags w r := by
  cases h <;> rfl

theorem IsRegister.refusesDest (h : IsRegister s l d) : s.refusesDest l = false := by
  cases h with
  | reg => rfl
  | acc w hacc => rw [State.refusesDest, hacc]; rfl

end

/-! ### Results as numbers (spec/41_arith.md R121) -/

/-- The 16-bit result is the integer result modulo 2^16. -/
theorem arithResult_toNat (op : ArithOp) (a b : Word) :
    (arithResult op a b).toNat = resultNumber op a.toNat b.toNat := by
  have ha := a.isLt
  have hb := b.isLt
  cases op <;> simp only [arithResult, resultNumber, BitVec.toNat_add, BitVec.toNat_sub] <;> omega

/-! ### How a move completes (spec/40_mov.md R103) -/

theorem move_of_source {w : Width} {d : Loc} {x : Source} {s : State} {v : Word} (hv : s.readSource w x = .ok v) :
    move w d x s = s.writeLoc w d v := by
  rw [move, hv]
  rfl

section
variable {i : Instr} {s : State} {w : Width} {x : Source} {n : Nat}

/-- A move to a register whose source reads completes and writes that register alone. -/
theorem exec_move_register {l : Loc} {d : RegOp} (hi : exec i s = s.execute i (move w l x))
    (hl : ∀ (t : State) (v : Word), t.writeLoc w l v = .ok (t.writeReg d v)) (hx : SourceReads s w x n) :
    ∃ t, exec i s = .next t ∧ WritesRegister i d n s t ∧ t.flags = s.flags := by
  obtain ⟨v, hv, rfl⟩ := hx
  let u := s.setPc (s.pc + i.length)
  have hread : u.readSource w x = .ok v := (s.readSource_setPc _ w x).trans hv
  have hmove : move w l x u = .ok (u.writeReg d v) := (move_of_source hread).trans (hl u v)
  exact ⟨u.writeReg d v, hi.trans (State.execute_ok hmove),
    ⟨u.writeReg_written d v, fun _ => rfl, rfl, rfl, rfl, rfl, rfl, rfl⟩, rfl⟩

/-- A store of `v` after the cursor has moved changes nothing but the bytes stored (R47). -/
theorem storesBytes_setMem (hm : Memory.wf s.mem) (a : Nat) (w : Width) (v : Word) :
    StoresBytes i a w v.toNat s ((s.setPc (s.pc + i.length)).setMem (Memory.store s.mem a w v)) :=
  ⟨Memory.store_stored (s.setPc (s.pc + i.length)) a w v hm, rfl, rfl, rfl, rfl, rfl, rfl, rfl, rfl⟩

theorem writeLoc_ea_of_inBounds {m : Ea} (hb : EaInBounds s w m) (k : Nat) (v : Word) :
    (s.setPc k).writeLoc w (.ea m) v =
      .ok ((s.setPc k).setMem (Memory.store s.mem (s.eaValue m).toNat w v)) := by
  rw [State.writeLoc, State.eaValue_setPc]
  exact State.memWrite_inside (s.setPc k) v hb

/-- A move to memory whose source reads completes and stores its bytes alone. -/
theorem exec_move_memory {m : Ea} (hi : exec i s = s.execute i (move w (.ea m) x)) (hm : Memory.wf s.mem)
    (hb : EaInBounds s w m) (hx : SourceReads s w x n) :
    ∃ t, exec i s = .next t ∧ StoresBytes i (s.eaValue m).toNat w n s t := by
  obtain ⟨v, hv, rfl⟩ := hx
  have hread := (s.readSource_setPc (s.pc + i.length) w x).trans hv
  have hmove := (move_of_source hread).trans (writeLoc_ea_of_inBounds hb (s.pc + i.length) v)
  exact ⟨_, hi.trans (State.execute_ok hmove), storesBytes_setMem hm _ w v⟩

end

theorem writeLoc_acc (w : Width) (t : State) (v : Word) :
    t.writeLoc w (.acc w) v = .ok (t.writeReg ⟨.ax, .low, w⟩ v) :=
  accReg_eq w ▸ rfl

/-- Settles O14: each source reads, and the destination is a register or the accumulator. -/
theorem moveToRegister : Obligations.MoveToRegister := by
  unfold Obligations.MoveToRegister
  intro s
  refine ⟨fun w d r => ?_, fun w d e he => ?_, fun w d v => ?_, fun w d v => ?_, fun w a ha => ?_⟩
  · exact exec_move_register (exec_movRmR w (.reg d) r s) (fun _ _ => rfl) (sourceReads_reg s w r)
  · exact exec_move_register (exec_movRRm w d e s) (fun _ _ => rfl) (sourceReads_rm he)
  · exact exec_move_register (exec_movRmImm w (.reg d) v s) (fun _ _ => rfl) (sourceReads_imm s w v)
  · exact exec_move_register (exec_movRImm w d v s) (fun _ _ => rfl) (sourceReads_imm s w v)
  · exact exec_move_register (exec_movAccMem w a s) (writeLoc_acc w) (sourceReads_ea ha)

/-- Settles O15: each source reads, and the destination is in the memory. -/
theorem moveToMemory : Obligations.MoveToMemory := by
  unfold Obligations.MoveToMemory
  refine fun s hm => ⟨fun w m r hb => ?_, fun w m v hb => ?_, fun w a hb => ?_⟩
  · exact exec_move_memory (exec_movRmR w (.mem m) r s) hm hb (sourceReads_reg s w r)
  · exact exec_move_memory (exec_movRmImm w (.mem m) v s) hm hb (sourceReads_imm s w v)
  · exact exec_move_memory (exec_movMemAcc w a s) hm hb (sourceReads_acc s w)

/-! ### How an arithmetic operation completes (spec/41_arith.md R120 to R123) -/

section
variable {i : Instr} {op : ArithOp} {b0 : Byte} {s : State} {w : Width} {x : Source} {n : Nat}

/-- Add and sub write their result to operand 1 (R123). -/
theorem writeResult_of_ne_cmp (hop : op ≠ .cmp) (t : State) (w : Width) (l : Loc) (r : Word) :
    t.writeResult op w l r = t.writeLoc w l r := by
  cases op with
  | add => rfl
  | sub => rfl
  | cmp => exact absurd rfl hop

/-- An add or a sub whose operand 1 is a register completes and writes that register and the flags. -/
theorem exec_arith_register {l : Loc} {d : RegOp} (hop : op ≠ .cmp) (hi : exec i s = s.execute i (arith op b0 w l x))
    (hl : IsRegister s l d) (hx : SourceReads s w x n) :
    ∃ t, exec i s = .next t ∧ WritesRegister i d (resultNumber op (regValue s d) n) s t ∧
      FlagsFrom w (resultNumber op (regValue s d) n) s t := by
  obtain ⟨b, hb, rfl⟩ := hx
  let u := s.setPc (s.pc + i.length)
  let r := arithResult op (s.readReg d) b
  have hr : resultNumber op (regValue s d) b.toNat = r.toNat := by
    rw [← s.readReg_toNat d]
    exact (arithResult_toNat op _ b).symm
  have harith : arith op b0 w l x u = .ok ((u.writeReg d r).setFlags w r) := by
    rw [← hl.resultFlags]
    exact arith_of_reads ((s.refusesDest_setPc _ l).trans hl.refusesDest)
      ((s.readLoc_setPc _ w l).trans (hl.readLoc w)) ((s.readSource_setPc _ w x).trans hb)
      ((writeResult_of_ne_cmp hop u w l r).trans (hl.writeLoc u w r))
  rw [hr]
  exact ⟨_, hi.trans (State.execute_ok harith),
    ⟨u.writeReg_written d r, fun _ => rfl, rfl, rfl, rfl, rfl, rfl, rfl⟩, (u.writeReg d r).setFlags_flagsFrom w r⟩

/-- A cmp whose operand 1 is a register completes and writes the flags. -/
theorem exec_cmp_register {l : Loc} {d : RegOp} (hi : exec i s = s.execute i (arith .cmp b0 w l x))
    (hl : IsRegister s l d) (hx : SourceReads s w x n) :
    ∃ t, exec i s = .next t ∧ FlagsFrom w (resultNumber .cmp (regValue s d) n) s t ∧
      t = { s with pc := s.pc + i.length, flags := t.flags } := by
  obtain ⟨b, hb, rfl⟩ := hx
  let u := s.setPc (s.pc + i.length)
  let r := arithResult .cmp (s.readReg d) b
  have hr : resultNumber .cmp (regValue s d) b.toNat = r.toNat := by
    rw [← s.readReg_toNat d]
    exact (arithResult_toNat .cmp _ b).symm
  have harith : arith .cmp b0 w l x u = .ok (u.setFlags w r) := by
    rw [← hl.resultFlags]
    exact arith_of_reads ((s.refusesDest_setPc _ l).trans hl.refusesDest)
      ((s.readLoc_setPc _ w l).trans (hl.readLoc w)) ((s.readSource_setPc _ w x).trans hb) rfl
  rw [hr]
  exact ⟨_, hi.trans (State.execute_ok harith), u.setFlags_flagsFrom w r, rfl⟩

/-- An add or a sub whose operand 1 is in the memory completes and stores the result's bytes alone. -/
theorem exec_arith_memory {m : Ea} (hop : op ≠ .cmp) (hi : exec i s = s.execute i (arith op b0 w (.ea m) x))
    (hm : Memory.wf s.mem) (hbound : EaInBounds s w m) (hx : SourceReads s w x n) :
    ∃ t, exec i s = .next t ∧
      StoresBytes i (s.eaValue m).toNat w (resultNumber op (memValue s (s.eaValue m).toNat w) n) s t := by
  obtain ⟨b, hb, rfl⟩ := hx
  obtain ⟨a, ha, hvalue⟩ := sourceReads_ea hbound
  rw [← hvalue, ← arithResult_toNat]
  have harith := arith_of_reads (b0 := b0) rfl ((s.readLoc_setPc (s.pc + i.length) w (.ea m)).trans ha)
    ((s.readSource_setPc _ w x).trans hb)
    ((writeResult_of_ne_cmp hop _ w (.ea m) _).trans (writeLoc_ea_of_inBounds hbound _ (arithResult op a b)))
  exact ⟨_, hi.trans (State.execute_ok harith), storesBytes_setMem hm _ w _⟩

/-- A cmp whose operand 1 is in the memory completes and moves the cursor alone. -/
theorem exec_cmp_memory {m : Ea} (hi : exec i s = s.execute i (arith .cmp b0 w (.ea m) x)) (hbound : EaInBounds s w m)
    (hx : SourceReads s w x n) : exec i s = .next { s with pc := s.pc + i.length } := by
  obtain ⟨b, hb, -⟩ := hx
  obtain ⟨a, ha, -⟩ := sourceReads_ea hbound
  have harith := arith_of_reads (b0 := b0) (op := .cmp) rfl
    ((s.readLoc_setPc (s.pc + i.length) w (.ea m)).trans ha) ((s.readSource_setPc _ w x).trans hb) rfl
  exact hi.trans (State.execute_ok harith)

end

/-- The six GRP1 adds execute alike (R79, R127). -/
theorem exec_addRmImm_forms {form : Width → RmOp → Imm → Instr}
    (h : form ∈ [Instr.addRmImm, .addRmImmR1, .addRmImmR2, .addRmImmR3, .addRmImmR4, .addRmImmR6]) (w : Width)
    (e : RmOp) (v : Imm) (s : State) :
    exec (form w e v) s = s.execute (form w e v) (arith .add (form w e v).opcode w (rmLoc e) (.imm v)) := by
  simp only [List.mem_cons, List.not_mem_nil, or_false] at h
  rcases h with rfl | rfl | rfl | rfl | rfl | rfl <;> rfl

/-- Settles O17: each source reads, and operand 1 is a register. -/
theorem addToRegister : Obligations.AddToRegister := by
  unfold Obligations.AddToRegister
  refine fun s => ⟨fun w d r => ?_, fun w d e he => ?_, fun w d v form hform => ?_⟩
  · exact exec_arith_register (by decide) (exec_addRmR w (.reg d) r s) (.reg d) (sourceReads_reg s w r)
  · exact exec_arith_register (by decide) (exec_addRRm w d e s) (.reg d) (sourceReads_rm he)
  · exact exec_arith_register (by decide) (exec_addRmImm_forms hform w (.reg d) v s) (.reg d) (sourceReads_imm s w v)

/-- Settles O18: each source reads, and operand 1 is in the memory. -/
theorem addToMemory : Obligations.AddToMemory := by
  unfold Obligations.AddToMemory
  refine fun s hm => ⟨fun w m r hb => ?_, fun w m v hb form hform => ?_⟩
  · exact exec_arith_memory (by decide) (exec_addRmR w (.mem m) r s) hm hb (sourceReads_reg s w r)
  · exact exec_arith_memory (by decide) (exec_addRmImm_forms hform w (.mem m) v s) hm hb (sourceReads_imm s w v)

/-- Settles O19: each source reads, and operand 1 is a register. -/
theorem subToRegister : Obligations.SubToRegister := by
  unfold Obligations.SubToRegister
  refine fun s => ⟨fun w d r => ?_, fun w d e he => ?_, fun w d v => ?_⟩
  · exact exec_arith_register (by decide) (exec_subRmR w (.reg d) r s) (.reg d) (sourceReads_reg s w r)
  · exact exec_arith_register (by decide) (exec_subRRm w d e s) (.reg d) (sourceReads_rm he)
  · exact exec_arith_register (by decide) (exec_subRmImm w (.reg d) v s) (.reg d) (sourceReads_imm s w v)

/-- Settles O20: each source reads, and operand 1 is in the memory. -/
theorem subToMemory : Obligations.SubToMemory := by
  unfold Obligations.SubToMemory
  refine fun s hm => ⟨fun w m r hb => ?_, fun w m v hb => ?_⟩
  · exact exec_arith_memory (by decide) (exec_subRmR w (.mem m) r s) hm hb (sourceReads_reg s w r)
  · exact exec_arith_memory (by decide) (exec_subRmImm w (.mem m) v s) hm hb (sourceReads_imm s w v)

/-- Settles O21: each source reads, and operand 1 is a register. -/
theorem compareRegister : Obligations.CompareRegister := by
  unfold Obligations.CompareRegister
  refine fun s => ⟨fun w d r => ?_, fun w d e he => ?_, fun w d v => ?_⟩
  · exact exec_cmp_register (exec_cmpRmR w (.reg d) r s) (.reg d) (sourceReads_reg s w r)
  · exact exec_cmp_register (exec_cmpRRm w d e s) (.reg d) (sourceReads_rm he)
  · exact exec_cmp_register (exec_cmpRmImm w (.reg d) v s) (.reg d) (sourceReads_imm s w v)

/-- Settles O22: each source reads, and operand 1 is in the memory. -/
theorem compareMemory : Obligations.CompareMemory := by
  unfold Obligations.CompareMemory
  refine fun s w m hb => ⟨fun r => ?_, fun v => ?_⟩
  · exact exec_cmp_memory (exec_cmpRmR w (.mem m) r s) hb (sourceReads_reg s w r)
  · exact exec_cmp_memory (exec_cmpRmImm w (.mem m) v s) hb (sourceReads_imm s w v)

/-- Settles O23: an accumulator that is not refused is a register. -/
theorem accumulatorArithmetic : Obligations.AccumulatorArithmetic := by
  unfold Obligations.AccumulatorArithmetic
  intro s w v hacc
  have hl : IsRegister s (.acc w) ⟨.ax, .low, w⟩ := accReg_eq w ▸ .acc w hacc
  exact ⟨exec_arith_register (by decide) (exec_addAccImm w v s) hl (sourceReads_imm s w v),
    exec_arith_register (by decide) (exec_subAccImm w v s) hl (sourceReads_imm s w v),
    exec_cmp_register (exec_cmpAccImm w v s) hl (sourceReads_imm s w v)⟩

/-- A refused destination raises Unmodelled before anything is read (R123, R185). -/
theorem exec_arith_refused {i : Instr} {op : ArithOp} {b0 : Byte} {w : Width} {l : Loc} {x : Source} {s : State}
    (hi : exec i s = s.execute i (arith op b0 w l x)) (hl : s.refusesDest l = true) :
    exec i s = .fault (.unmodelled b0) :=
  hi.trans (State.execute_error (if_pos ((s.refusesDest_setPc _ l).trans hl)))

/-- Settles O24: the accumulator is refused, and each form has two opcode bytes. -/
theorem accumulatorRefused : Obligations.AccumulatorRefused := by
  unfold Obligations.AccumulatorRefused
  intro s w v hacc
  have hl : s.refusesDest (.acc w) = true := by rw [State.refusesDest, hacc]; rfl
  rw [exec_arith_refused (exec_addAccImm w v s) hl, exec_arith_refused (exec_subAccImm w v s) hl,
    exec_arith_refused (exec_cmpAccImm w v s) hl]
  cases w <;> exact ⟨rfl, rfl, rfl⟩

/-! ### Jumps and loops (spec/42_control.md) -/

theorem State.jumpTo_inside {s : State} {t : Nat} (h : t ≤ s.stream.length) : s.jumpTo t = .ok (s.setPc t) :=
  if_pos ⟨Int.natCast_nonneg t, Int.ofNat_le.mpr h⟩

theorem State.jumpTo_outside {s : State} {t : Int} (h : t < 0 ∨ (s.stream.length : Int) < t) :
    s.jumpTo t = .error (.jumpOutOfStream t) :=
  if_neg (by omega)

theorem jumpIfNotZero_not_taken {v : Byte} {s : State} (h : s.zf = true) : jumpIfNotZero v s = .ok s :=
  if_pos h

theorem jumpIfNotZero_taken {v : Byte} {s : State} (h : s.zf = false) :
    jumpIfNotZero v s = s.jumpTo (s.jumpTarget v) :=
  if_neg (by simp [h])

/-- The target of a jnz, from the cursor at its first byte (R150). -/
theorem jumpTarget_after_jnz (s : State) (v w : Byte) :
    (s.setPc (s.pc + (Instr.jnz w).length)).jumpTarget v = (s.pc : Int) + 2 + v.toInt := by
  rw [State.jumpTarget, State.setPc_pc, Instr.length, Nat.cast_add, Nat.cast_ofNat]

/-- Settles O25, by the value of ZF. -/
theorem jnzBranches : Obligations.JnzBranches := by
  unfold Obligations.JnzBranches
  refine fun s v => ⟨fun hz => ?_, fun t hz ht hle => ?_⟩ <;> rw [exec_jnz]
  · exact State.execute_ok (jumpIfNotZero_not_taken hz)
  · refine State.execute_ok ?_
    rw [jumpIfNotZero_taken ((s.zf_setPc _).trans hz), jumpTarget_after_jnz, ← ht]
    exact State.jumpTo_inside hle

/-- Settles O26: the branch is taken, and its target is outside the stream. -/
theorem jnzOutOfStream : Obligations.JnzOutOfStream := by
  unfold Obligations.JnzOutOfStream
  intro s v t hz ht hout
  rw [exec_jnz]
  refine State.execute_error ?_
  rw [jumpIfNotZero_taken ((s.zf_setPc _).trans hz), jumpTarget_after_jnz, ← ht]
  exact State.jumpTo_outside hout

/-- Every jump and loop form but jnz is inactive (R152). -/
theorem exec_inactive {op : JumpOp} (h : op ≠ .jnz) (v : Byte) (s : State) :
    exec (op.instr v) s = s.execute (op.instr v) (inactiveJump op.code) := by
  cases op with
  | jnz => exact absurd rfl h
  | _ => rfl

theorem inactiveJump_noop {b0 : Byte} {s : State} (h : s.cfg.jccMode = .noop) : inactiveJump b0 s = .ok s := by
  rw [inactiveJump, h]

theorem inactiveJump_refuse {b0 : Byte} {s : State} (h : s.cfg.jccMode = .refuse) :
    inactiveJump b0 s = .error (.unmodelled b0) := by
  rw [inactiveJump, h]

/-- Settles O27: an inactive jump does nothing once the cursor is past it. -/
theorem inactiveJumpsOnlyAdvance : Obligations.InactiveJumpsOnlyAdvance := by
  unfold Obligations.InactiveJumpsOnlyAdvance
  intro s op v hop hmode
  rw [exec_inactive hop, State.execute_ok (inactiveJump_noop hmode), JumpOp.instr_length]
  rfl

/-- Settles O28: an inactive jump is refused with its own opcode byte. -/
theorem inactiveJumpsRefused : Obligations.InactiveJumpsRefused := by
  unfold Obligations.InactiveJumpsRefused
  intro s op v hop hmode
  rw [exec_inactive hop]
  exact State.execute_error (inactiveJump_refuse hmode)

/-! ### Stored words (spec/20_memory.md R46 to R48) -/

theorem State.memRead_eq_of_memValue {s : State} {a : Nat} {w : Width} {v : Word} (hb : a + w.bytes ≤ s.cfg.memSize)
    (hv : memValue s a w = v.toNat) : s.memRead a w = .ok v := by
  obtain ⟨u, hu, hvalue⟩ := s.memRead_value hb
  rw [hu, BitVec.eq_of_toNat_eq (hvalue.trans hv)]

/-- Settles O13: the two bytes stored are those that a read of the word and of each byte puts together. -/
theorem storedWordReadsBack : Obligations.StoredWordReadsBack := by
  unfold Obligations.StoredWordReadsBack
  intro s a v hm hb
  have hstored := Memory.store_stored s a .word v hm
  have ⟨hlo, hword, _⟩ := hstored
  have hhi := hword rfl
  have hv := v.isLt
  refine ⟨_, State.memWrite_inside s v hb, hstored, State.memRead_eq_of_memValue hb ?_, ?_, ?_⟩
  · rw [memValue, hlo, hhi]
    omega
  · obtain ⟨lo, hread, hvalue⟩ := State.memRead_value (s.setMem (Memory.store s.mem a .word v)) (a := a) (w := .byte)
      (by rw [State.setMem_cfg, Width.bytes]; omega)
    exact ⟨lo, hread, hvalue.trans hlo⟩
  · obtain ⟨hi, hread, hvalue⟩ := State.memRead_value (s.setMem (Memory.store s.mem a .word v)) (a := a + 1)
      (w := .byte) (by rw [State.setMem_cfg, Width.bytes]; omega)
    exact ⟨hi, hread, hvalue.trans (hhi.trans (by omega))⟩

end Sys2Proof.Machine
end

section
/-! PROOFS of the rules over all instructions: which fault, which complete, and which read and write what
(spec/10_state.md R26, spec/20_memory.md R41 to R53, spec/60_exceptions.md R183). -/

namespace Sys2Proof.Machine

/-! ### The four bodies of the execute phase -/

/-- The operand slot of a source. -/
def Source.operand : Source → Operand
  | .loc l => l.operand
  | .imm v => .imm v

/-- The body that an instruction's execute phase runs, with what the record says of its operands. -/
inductive Runs (i : Instr) : (State → Except Fault State) → Prop where
  | move (w : Width) (d : Loc) (x : Source) : (i.record 0).op = .mov → (i.record 0).w = w →
      (i.record 0).dst = d.operand → (i.record 0).src = some x.operand → Runs i (move w d x)
  /-- Only an immediate is added to, subtracted from or compared with the accumulator (R83). -/
  | arith (op : ArithOp) (b0 : Byte) (w : Width) (d : Loc) (x : Source) : (i.record 0).op = .arith op →
      (i.record 0).w = w → (i.record 0).dst = d.operand → (i.record 0).src = some x.operand →
      (∀ u, d = .acc u → ∃ v, x = .imm v) → Runs i (arith op b0 w d x)
  | jnz (v : Byte) : i = .jnz v → Runs i (jumpIfNotZero v)
  | inactive (b0 v : Byte) : (i.record 0).dst = .rel v → (i.record 0).src = none →
      Runs i (inactiveJump b0)

theorem operand_loc_rmLoc (e : RmOp) : some e.operand = some (Source.loc (rmLoc e)).operand :=
  congrArg some (rmLoc_operand e).symm

theorem rmLoc_ne_acc (e : RmOp) (u : Width) : rmLoc e ≠ .acc u := by
  cases e <;> exact nofun

/-- Every instruction has one of the four bodies (R103 to R109, R125 to R136, R152 to R172). -/
theorem exec_runs (i : Instr) : ∃ body, Runs i body ∧ ∀ s, exec i s = s.execute i body := by
  cases i with
  | movRmR w d r | movRmImm w d v =>
    exact ⟨_, .move _ _ _ rfl rfl (rmLoc_operand d).symm rfl, fun _ => rfl⟩
  | movRRm w d e => exact ⟨_, .move _ _ _ rfl rfl rfl (operand_loc_rmLoc e), fun _ => rfl⟩
  | movRImm w d v => exact ⟨_, .move _ _ _ rfl rfl rfl rfl, exec_movRImm w d v⟩
  | movAccMem w a => exact ⟨_, .move _ _ _ rfl rfl rfl rfl, exec_movAccMem w a⟩
  | movMemAcc w a => exact ⟨_, .move _ _ _ rfl rfl rfl rfl, exec_movMemAcc w a⟩
  | addRmR w d r | subRmR w d r | cmpRmR w d r | addRmImm w d v | addRmImmR1 w d v | addRmImmR2 w d v
  | addRmImmR3 w d v | addRmImmR4 w d v | addRmImmR6 w d v | subRmImm w d v | cmpRmImm w d v =>
    exact ⟨_, .arith _ _ _ _ _ rfl rfl (rmLoc_operand d).symm rfl fun u h => absurd h (rmLoc_ne_acc d u), fun _ => rfl⟩
  | addRRm w d e | subRRm w d e | cmpRRm w d e =>
    exact ⟨_, .arith _ _ _ (.reg d) _ rfl rfl rfl (operand_loc_rmLoc e) nofun, fun _ => rfl⟩
  | addAccImm w v | subAccImm w v | cmpAccImm w v =>
    exact ⟨_, .arith _ _ _ _ _ rfl rfl rfl rfl fun _ _ => ⟨v, rfl⟩, fun _ => rfl⟩
  | jnz v => exact ⟨_, .jnz v rfl, exec_jnz v⟩
  | _ => exact ⟨_, .inactive _ _ rfl rfl, fun _ => rfl⟩

/-! ### Accesses outside the memory (spec/20_memory.md R46, R47, spec/60_exceptions.md R183) -/

@[simp] theorem Loc.operand_eq_ea (l : Loc) (m : Ea) : l.operand = .ea m ↔ l = .ea m := by
  cases l <;> simp [Loc.operand]

@[simp] theorem Source.operand_eq_ea (x : Source) (m : Ea) : x.operand = .ea m ↔ x = .loc (.ea m) := by
  cases x <;> simp [Source.operand]

theorem move_source_error {w : Width} {d : Loc} {x : Source} {s : State} {f : Fault}
    (h : s.readSource w x = .error f) : move w d x s = .error f := by
  rw [move, h]
  rfl

theorem arith_dst_error {op : ArithOp} {b0 : Byte} {w : Width} {d : Loc} {x : Source} {s : State} {f : Fault}
    (hd : s.refusesDest d = false) (h : s.readLoc w d = .error f) : arith op b0 w d x s = .error f := by
  simp [arith, hd, h, bind, Except.bind]

theorem arith_source_error {op : ArithOp} {b0 : Byte} {w : Width} {d : Loc} {x : Source} {s : State} {f : Fault}
    {a : Word} (hd : s.refusesDest d = false) (ha : s.readLoc w d = .ok a) (h : s.readSource w x = .error f) :
    arith op b0 w d x s = .error f := by
  simp [arith, hd, ha, h, bind, Except.bind]

section
variable {u : State} {w : Width} {m : Ea} (hout : u.cfg.memSize < (u.eaValue m).toNat + w.bytes)
include hout

theorem readLoc_outside : u.readLoc w (.ea m) = .error (.memOutOfBounds (u.eaValue m).toNat w.bytes) :=
  State.memRead_outside u hout

theorem writeLoc_outside (v : Word) :
    u.writeLoc w (.ea m) v = .error (.memOutOfBounds (u.eaValue m).toNat w.bytes) :=
  State.memWrite_outside u v hout

/-- A move that touches no other address faults at the one it touches. -/
theorem move_outside {d : Loc} {x : Source} (h : d = .ea m ∨ x = .loc (.ea m))
    (honly : ∀ m', x = .loc (.ea m') → m' = m) :
    move w d x u = .error (.memOutOfBounds (u.eaValue m).toNat w.bytes) := by
  rcases h with rfl | rfl
  · cases hx : u.readSource w x with
    | ok v => exact (move_of_source hx).trans (writeLoc_outside hout v)
    | error f =>
      obtain ⟨m', rfl⟩ : ∃ m', x = .loc (.ea m') := by
        rcases x with (r | u' | m') | v
        · cases hx
        · cases hx
        · exact ⟨m', rfl⟩
        · cases hx
      obtain rfl := honly m' rfl
      exact move_source_error (readLoc_outside hout)
  · exact move_source_error (readLoc_outside hout)

/-- An arithmetic operation that touches no other address faults at the one it touches. -/
theorem arith_outside {op : ArithOp} {b0 : Byte} {d : Loc} {x : Source} (h : d = .ea m ∨ x = .loc (.ea m))
    (honly : ∀ m', d = .ea m' → m' = m) (hacc : ∀ u', d = .acc u' → ∃ v, x = .imm v) :
    arith op b0 w d x u = .error (.memOutOfBounds (u.eaValue m).toNat w.bytes) := by
  rcases h with rfl | rfl
  · exact arith_dst_error rfl (readLoc_outside hout)
  · cases d with
    | reg r => exact arith_source_error rfl rfl (readLoc_outside hout)
    | acc u' =>
      obtain ⟨v, hv⟩ := hacc u' rfl
      cases hv
    | ea m' =>
      obtain rfl := honly m' rfl
      exact arith_dst_error rfl (readLoc_outside hout)

end

/-- No instruction has two memory operands (R187). -/
theorem HasAddress.unique {i : Instr} {m m' : Ea} (h : HasAddress i m) (h' : HasAddress i m') : m' = m :=
  Option.some.inj (((hasAddress_iff i m').mp h').symm.trans ((hasAddress_iff i m).mp h))

/-- A body with an address outside the memory faults there. -/
theorem Runs.outside {i : Instr} {body : State → Except Fault State} (h : Runs i body) {u : State} {m : Ea}
    (hm : HasAddress i m) (hout : u.cfg.memSize < (u.eaValue m).toNat + (i.record 0).w.bytes) :
    body u = .error (.memOutOfBounds (u.eaValue m).toNat (i.record 0).w.bytes) := by
  have honly : ∀ m', HasAddress i m' → m' = m := fun m' => hm.unique
  unfold HasAddress at hm honly
  cases h with
  | move w d x hop hw hdst hsrc =>
    simp only [hdst, hsrc, Option.some.injEq, Loc.operand_eq_ea, Source.operand_eq_ea] at hm honly
    subst hw
    exact move_outside hout hm fun m' hx => honly m' (.inr hx)
  | arith op b0 w d x hop hw hdst hsrc hacc =>
    simp only [hdst, hsrc, Option.some.injEq, Loc.operand_eq_ea, Source.operand_eq_ea] at hm honly
    subst hw
    exact arith_outside hout hm (fun m' hd => honly m' (.inl hd)) hacc
  | jnz v hi =>
    subst hi
    rcases hm with h | h <;> cases h
  | inactive b0 v hdst hsrc => simp [hdst, hsrc] at hm

/-- Settles O29: the body faults at the instruction's one address. -/
theorem outOfBoundsFaults : Obligations.OutOfBoundsFaults := by
  unfold Obligations.OutOfBoundsFaults
  intro i s m hm hout
  obtain ⟨body, hruns, hexec⟩ := exec_runs i
  rw [hexec]
  have hfault := hruns.outside (u := s.setPc (s.pc + i.length)) ((hasAddress_iff i m).mpr hm)
    (by rwa [State.eaValue_setPc])
  rw [State.eaValue_setPc] at hfault
  exact State.execute_error hfault

/-! ### Bodies in a memory of at least 0x10001 bytes (spec/20_memory.md R41) -/

section
variable {u : State} (hlarge : 0x10001 ≤ u.cfg.memSize)
include hlarge

/-- A 16-bit address and the byte after it are in the memory. -/
theorem eaInBounds_of_large (w : Width) (m : Ea) : EaInBounds u w m := by
  have := (u.eaValue m).isLt
  unfold EaInBounds
  cases w <;> rw [Width.bytes] <;> omega

theorem readLoc_completes (w : Width) (l : Loc) : ∃ v, u.readLoc w l = .ok v := by
  cases l with
  | reg r => exact ⟨_, rfl⟩
  | acc u' => exact ⟨_, rfl⟩
  | ea m =>
    obtain ⟨v, hv, -⟩ := u.memRead_value (eaInBounds_of_large hlarge w m)
    exact ⟨v, hv⟩

theorem readSource_completes (w : Width) (x : Source) : ∃ v, u.readSource w x = .ok v := by
  cases x with
  | loc l => exact readLoc_completes hlarge w l
  | imm v => exact ⟨_, rfl⟩

theorem writeLoc_completes (w : Width) (l : Loc) (v : Word) : ∃ t, u.writeLoc w l v = .ok t := by
  cases l with
  | reg r => exact ⟨_, rfl⟩
  | acc u' => exact ⟨_, rfl⟩
  | ea m => exact ⟨_, u.memWrite_inside v (eaInBounds_of_large hlarge w m)⟩

theorem writeResult_completes (op : ArithOp) (w : Width) (l : Loc) (r : Word) :
    ∃ t, u.writeResult op w l r = .ok t := by
  cases op with
  | add => exact writeLoc_completes hlarge w l r
  | sub => exact writeLoc_completes hlarge w l r
  | cmp => exact ⟨u, rfl⟩

theorem move_completes (w : Width) (d : Loc) (x : Source) : ∃ t, move w d x u = .ok t := by
  obtain ⟨v, hv⟩ := readSource_completes hlarge w x
  rw [move_of_source hv]
  exact writeLoc_completes hlarge w d v

theorem arith_completes (op : ArithOp) (b0 : Byte) (w : Width) {d : Loc} (x : Source)
    (hd : u.refusesDest d = false) : ∃ t, arith op b0 w d x u = .ok t := by
  obtain ⟨a, ha⟩ := readLoc_completes hlarge w d
  obtain ⟨b, hb⟩ := readSource_completes hlarge w x
  obtain ⟨t, ht⟩ := writeResult_completes hlarge op w d (arithResult op a b)
  exact ⟨_, arith_of_reads hd ha hb ht⟩

end

theorem accDest_of_refusesDest {s : State} {l : Loc} (h : s.refusesDest l = true) : s.cfg.accDest = .refuse := by
  cases l with
  | acc w => exact eq_of_beq h
  | reg r => cases h
  | ea m => cases h

/-- In a large memory a body completes, or meets a parameter value `refuse`, or is a jnz out of the stream. -/
theorem Runs.of_large_memory {i : Instr} {body : State → Except Fault State} (h : Runs i body) {u : State}
    (hlarge : 0x10001 ≤ u.cfg.memSize) :
    (∃ t, body u = .ok t) ∨
      (∃ b, body u = .error (.unmodelled b) ∧ (u.cfg.accDest = .refuse ∨ u.cfg.jccMode = .refuse)) ∨
      ∃ v, i = .jnz v ∧ u.zf = false ∧ ¬ (0 ≤ u.jumpTarget v ∧ u.jumpTarget v ≤ u.stream.length) ∧
        body u = .error (.jumpOutOfStream (u.jumpTarget v)) := by
  cases h with
  | move w d x => exact .inl (move_completes hlarge w d x)
  | arith op b0 w d x =>
    cases hd : u.refusesDest d with
    | false => exact .inl (arith_completes hlarge op b0 w x hd)
    | true => exact .inr (.inl ⟨b0, if_pos hd, .inl (accDest_of_refusesDest hd)⟩)
  | jnz v hi =>
    cases hz : u.zf with
    | true => exact .inl ⟨u, jumpIfNotZero_not_taken hz⟩
    | false =>
      rw [jumpIfNotZero_taken hz]
      by_cases ht : 0 ≤ u.jumpTarget v ∧ u.jumpTarget v ≤ u.stream.length
      · exact .inl ⟨_, if_pos ht⟩
      · exact .inr (.inr ⟨v, hi, rfl, ht, if_neg ht⟩)
  | inactive b0 v =>
    cases hmode : u.cfg.jccMode with
    | noop => exact .inl ⟨u, inactiveJump_noop hmode⟩
    | refuse => exact .inr (.inl ⟨b0, inactiveJump_refuse hmode, .inr rfl⟩)

/-- Settles O30: none of the ways in which a body of a large memory can end is that fault. -/
theorem largeMemoryNeverOutOfBounds : Obligations.LargeMemoryNeverOutOfBounds := by
  unfold Obligations.LargeMemoryNeverOutOfBounds
  intro i s a n hlarge hfault
  obtain ⟨body, hruns, hexec⟩ := exec_runs i
  have hbody := State.execute_fault ((hexec s).symm.trans hfault)
  rcases hruns.of_large_memory (u := s.setPc (s.pc + i.length)) hlarge with
    ⟨t, hok⟩ | ⟨b, herror, -⟩ | ⟨v, -, -, -, herror⟩
  · cases hok.symm.trans hbody
  · cases herror.symm.trans hbody
  · cases herror.symm.trans hbody

/-- Settles O31: the default memory is large, and no default value refuses. -/
theorem everyInstructionCompletes : Obligations.EveryInstructionCompletes := by
  unfold Obligations.EveryInstructionCompletes
  intro i s hcfg hjnz
  obtain ⟨body, hruns, hexec⟩ := exec_runs i
  rw [hexec]
  have hlarge : 0x10001 ≤ s.cfg.memSize := by rw [hcfg]; decide
  rcases hruns.of_large_memory (u := s.setPc (s.pc + i.length)) hlarge with
    ⟨t, hok⟩ | ⟨b, -, hrefuse⟩ | ⟨v, rfl, hz, hout, -⟩
  · exact ⟨t, State.execute_ok hok⟩
  · rw [State.setPc_cfg, hcfg] at hrefuse
    rcases hrefuse with h | h <;> cases h
  · rw [jumpTarget_after_jnz] at hout
    exact absurd (hjnz v rfl hz) hout

/-! ### What an instruction writes (spec/10_state.md R26, R27, spec/20_memory.md R41, R49 to R53) -/

theorem record_dst (i : Instr) (m n : Nat) : (i.record m).dst = (i.record n).dst := by
  cases i <;> rfl

/-- A register or accumulator destination is no memory operand. -/
theorem ne_ea_of_register {dst : Operand} {r : RegOp} (h : dst = .reg r ∨ ∃ w, dst = .acc w ∧ r = accReg w) (m : Ea) :
    dst ≠ .ea m := by
  rcases h with rfl | ⟨w, rfl, -⟩ <;> exact nofun

/-- Only an arithmetic operation with a register or accumulator as operand 1 writes the flags (R26). -/
theorem Effect.flags_cases {op : OpTag} {dst : Operand} {u t : State} (h : Effect op dst u t) :
    t.flags = u.flags ∨ ∃ a, op = .arith a ∧ ∀ m, dst ≠ .ea m := by
  cases h with
  | nothing => exact .inl rfl
  | register r v => exact .inl (State.writeReg_flags u r v)
  | memory m w v => exact .inl (State.setMem_flags u _)
  | result r w v hop hdst =>
    rcases hop with hadd | hsub
    · exact .inr ⟨.add, hadd, ne_ea_of_register hdst⟩
    · exact .inr ⟨.sub, hsub, ne_ea_of_register hdst⟩
  | compare r w v hcmp hdst => exact .inr ⟨.cmp, hcmp, ne_ea_of_register hdst⟩
  | jump d n => exact .inl (State.setPc_flags u n)

/-- Settles O32, from the effects that write the flags. -/
theorem flagWriters : Obligations.FlagWriters := by
  unfold Obligations.FlagWriters
  intro i s t h
  have he := exec_effect h
  rw [i.record_op s.pc 0, record_dst i s.pc 0] at he
  exact ⟨he.reservedFlags_eq, fun hne => he.flags_cases.resolve_left hne⟩

section
variable {s t : State} {w : Width} {a : Nat}

/-- A write to an operand changes only the bytes at a memory operand. -/
theorem writeLoc_changes {l : Loc} {v : Word} (h : s.writeLoc w l v = .ok t)
    (hne : Memory.read t.mem a ≠ Memory.read s.mem a) :
    ∃ m, l = .ea m ∧ (s.eaValue m).toNat ≤ a ∧ a < (s.eaValue m).toNat + w.bytes := by
  rcases State.writeLoc_ok h with ⟨r, -, rfl⟩ | ⟨u, -, rfl⟩ | ⟨m, rfl, -, rfl⟩
  · exact absurd rfl hne
  · exact absurd rfl hne
  · refine ⟨m, rfl, ?_⟩
    by_contra hout
    exact hne (Memory.read_store_outside s.mem _ w v (by omega))

theorem resultFlags_mem (s : State) (w : Width) (l : Loc) (r : Word) : (s.resultFlags w l r).mem = s.mem := by
  cases l <;> rfl

/-- An arithmetic operation that changes memory is no cmp, and writes its operand 1. -/
theorem arith_changes {op : ArithOp} {b0 : Byte} {d : Loc} {x : Source} (h : arith op b0 w d x s = .ok t)
    (hne : Memory.read t.mem a ≠ Memory.read s.mem a) :
    (op = .add ∨ op = .sub) ∧ ∃ m, d = .ea m ∧ (s.eaValue m).toNat ≤ a ∧ a < (s.eaValue m).toNat + w.bytes := by
  obtain ⟨-, _, _, u, -, -, hwrite, rfl⟩ := arith_ok h
  rw [resultFlags_mem] at hne
  cases op with
  | add => exact ⟨.inl rfl, writeLoc_changes hwrite hne⟩
  | sub => exact ⟨.inr rfl, writeLoc_changes hwrite hne⟩
  | cmp =>
    obtain rfl := Except.ok.inj hwrite
    exact absurd rfl hne

end

/-- A jnz changes the cursor alone. -/
theorem jumpIfNotZero_mem {v : Byte} {s t : State} (h : jumpIfNotZero v s = .ok t) : t.mem = s.mem := by
  unfold jumpIfNotZero at h
  split at h
  · rw [Except.ok.inj h]
  · obtain ⟨-, -, rfl⟩ := State.jumpTo_ok h
    rfl

/-- Settles O34: of the four bodies a move and an add or sub write memory, at their destination. -/
theorem memoryWriters : Obligations.MemoryWriters := by
  unfold Obligations.MemoryWriters
  intro i s t a h hne
  obtain ⟨body, hruns, hexec⟩ := exec_runs i
  have hbody := State.execute_next ((hexec s).symm.trans h)
  cases hruns with
  | move w d x hop hw hdst =>
    obtain ⟨v, -, hwrite⟩ := move_ok hbody
    obtain ⟨m, rfl, hrange⟩ := writeLoc_changes hwrite hne
    rw [State.eaValue_setPc] at hrange
    exact ⟨.inl hop, m, hdst, hw ▸ hrange⟩
  | arith op b0 w d x hop hw hdst =>
    obtain ⟨hcases, m, rfl, hrange⟩ := arith_changes hbody hne
    rw [State.eaValue_setPc] at hrange
    refine ⟨.inr ?_, m, hdst, hw ▸ hrange⟩
    exact hcases.imp (by rintro rfl; exact hop) (by rintro rfl; exact hop)
  | jnz v => exact absurd (by rw [jumpIfNotZero_mem hbody, State.setPc_mem]) hne
  | inactive b0 v => exact absurd (by rw [inactiveJump_ok hbody, State.setPc_mem]) hne

/-- Settles O45: a changed byte is at a 16-bit address or the one after it. -/
theorem highMemoryUntouched : Obligations.HighMemoryUntouched := by
  unfold Obligations.HighMemoryUntouched
  intro s t a h hhigh
  obtain ⟨-, ⟨-, rfl⟩ | ⟨-, f, rfl⟩ | ⟨i, rest, u, -, hx, rfl⟩⟩ := step_next h
  · rfl
  · rfl
  · by_contra hne
    rw [account_mem] at hne
    obtain ⟨-, m, -, -, hlt⟩ := memoryWriters i s u a hx hne
    have haddr := (s.eaValue m).isLt
    have hbytes : (i.record 0).w.bytes ≤ 2 := by cases (i.record 0).w <;> decide
    omega

/-! ### What an instruction reads of the flags (spec/10_state.md R26, R27)

Every body but jnz's gives the same with other flags, the flags apart. -/

/-- The state with another flags byte. -/
def State.withFlags (s : State) (f : Byte) : State :=
  { s with flags := f }

/-- The state with its flags forgotten. -/
def State.unflagged (s : State) : State :=
  s.withFlags 0

section
variable (s : State) (f : Byte)

@[simp] theorem State.readLoc_withFlags (w : Width) (l : Loc) : (s.withFlags f).readLoc w l = s.readLoc w l :=
  State.readLoc_congr rfl rfl rfl w l

@[simp] theorem State.readSource_withFlags (w : Width) (x : Source) :
    (s.withFlags f).readSource w x = s.readSource w x :=
  State.readSource_congr rfl rfl rfl w x

@[simp] theorem State.refusesDest_withFlags (l : Loc) : (s.withFlags f).refusesDest l = s.refusesDest l :=
  State.refusesDest_congr rfl l

theorem State.memWrite_withFlags (a : Nat) (w : Width) (v : Word) :
    (s.withFlags f).memWrite a w v = (s.memWrite a w v).map (·.withFlags f) := by
  by_cases hb : a + w.bytes ≤ s.cfg.memSize
  · rw [State.memWrite_inside s v hb, State.memWrite_inside (s.withFlags f) v hb]
    rfl
  · have hout : s.cfg.memSize < a + w.bytes := Nat.lt_of_not_le hb
    rw [State.memWrite_outside s v hout, State.memWrite_outside (s.withFlags f) v hout]
    rfl

theorem State.writeLoc_withFlags (w : Width) (l : Loc) (v : Word) :
    (s.withFlags f).writeLoc w l v = (s.writeLoc w l v).map (·.withFlags f) := by
  cases l with
  | reg r => rfl
  | acc u => rfl
  | ea m =>
    rw [State.writeLoc, State.eaValue_congr (s := s) (t := s.withFlags f) rfl rfl]
    exact s.memWrite_withFlags f _ w v

theorem State.writeResult_withFlags (op : ArithOp) (w : Width) (l : Loc) (r : Word) :
    (s.withFlags f).writeResult op w l r = (s.writeResult op w l r).map (·.withFlags f) := by
  cases op with
  | add => exact s.writeLoc_withFlags f w l r
  | sub => exact s.writeLoc_withFlags f w l r
  | cmp => rfl

theorem State.resultFlags_withFlags (w : Width) (l : Loc) (r : Word) :
    ((s.withFlags f).resultFlags w l r).unflagged = (s.resultFlags w l r).unflagged := by
  cases l <;> rfl

theorem State.jumpTo_withFlags (t : Int) :
    ((s.withFlags f).jumpTo t).map State.unflagged = (s.jumpTo t).map State.unflagged := by
  have hstream : (s.withFlags f).stream = s.stream := rfl
  unfold State.jumpTo
  rw [hstream]
  split <;> rfl

end

/-- A body gives the same with flags `f` as with those of `s`, the flags apart. -/
def IgnoresFlags (body : State → Except Fault State) (s : State) (f : Byte) : Prop :=
  (body (s.withFlags f)).map State.unflagged = (body s).map State.unflagged

theorem move_ignoresFlags (w : Width) (d : Loc) (x : Source) (s : State) (f : Byte) :
    IgnoresFlags (move w d x) s f := by
  unfold IgnoresFlags
  rw [move, move, State.readSource_withFlags]
  cases s.readSource w x with
  | error g => rfl
  | ok v =>
    simp only [bind, Except.bind, State.writeLoc_withFlags]
    cases s.writeLoc w d v <;> rfl

theorem arith_ignoresFlags (op : ArithOp) (b0 : Byte) (w : Width) (d : Loc) (x : Source) (s : State) (f : Byte) :
    IgnoresFlags (arith op b0 w d x) s f := by
  unfold IgnoresFlags arith
  rw [State.refusesDest_withFlags, State.readLoc_withFlags, State.readSource_withFlags]
  split
  case isTrue => rfl
  case isFalse =>
    cases s.readLoc w d with
    | error g => rfl
    | ok a =>
      cases s.readSource w x with
      | error g => rfl
      | ok b =>
        simp only [bind, Except.bind, State.writeResult_withFlags]
        cases s.writeResult op w d (arithResult op a b) with
        | error g => rfl
        | ok t => exact congrArg Except.ok (t.resultFlags_withFlags f w d _)

theorem inactiveJump_ignoresFlags (b0 : Byte) (s : State) (f : Byte) : IgnoresFlags (inactiveJump b0) s f := by
  have hmode : (s.withFlags f).cfg.jccMode = s.cfg.jccMode := rfl
  rw [IgnoresFlags, inactiveJump, inactiveJump, hmode]
  cases s.cfg.jccMode <;> rfl

/-- A jnz reads ZF alone (R26). -/
theorem jumpIfNotZero_ignoresFlags (v : Byte) {s : State} {f : Byte} (hz : f.getLsbD 6 = s.zf) :
    IgnoresFlags (jumpIfNotZero v) s f := by
  have hzf : (s.withFlags f).zf = s.zf := hz
  rw [IgnoresFlags, jumpIfNotZero, jumpIfNotZero, hzf]
  cases s.zf with
  | true => rfl
  | false => exact s.jumpTo_withFlags f _

/-- States that are the same with their flags forgotten differ in the flags alone. -/
theorem eq_withFlags_of_unflagged {s t : State} (h : s.unflagged = t.unflagged) : s = t.withFlags s.flags :=
  congrArg (·.withFlags s.flags) h

theorem State.execute_sameButFlags {i : Instr} {body : State → Except Fault State} {s : State} {f : Byte}
    (h : IgnoresFlags body (s.setPc (s.pc + i.length)) f) :
    SameButFlags (s.execute i body) ((s.withFlags f).execute i body) := by
  have hpc : (s.withFlags f).setPc ((s.withFlags f).pc + i.length) = (s.setPc (s.pc + i.length)).withFlags f := rfl
  rw [State.execute, State.execute, hpc]
  unfold IgnoresFlags at h
  cases hs : body (s.setPc (s.pc + i.length)) <;> cases hf : body ((s.setPc (s.pc + i.length)).withFlags f) <;>
    rw [hs, hf] at h
  case error.error => exact (Except.error.inj h).symm
  case ok.ok => exact eq_withFlags_of_unflagged (Except.ok.inj h).symm
  case error.ok => cases h
  case ok.error => cases h

/-- Settles O33: three bodies ignore the flags, and jnz's reads ZF alone. -/
theorem flagReaders : Obligations.FlagReaders := by
  unfold Obligations.FlagReaders
  intro i s f hz
  obtain ⟨body, hruns, hexec⟩ := exec_runs i
  rw [hexec, hexec]
  apply State.execute_sameButFlags (f := f)
  cases hruns with
  | move w d x => exact move_ignoresFlags w d x _ f
  | arith op b0 w d x => exact arith_ignoresFlags op b0 w d x _ f
  | jnz v hi => exact jumpIfNotZero_ignoresFlags v (hz ⟨v, hi⟩)
  | inactive b0 v => exact inactiveJump_ignoresFlags b0 _ f

end Sys2Proof.Machine
end

section
/-! PROOFS of the statements about costs and the decoded record (spec/30_encoding.md R60,
spec/70_reset_and_hazards.md R215 to R221). -/

namespace Sys2Proof.Machine

/-! ### Base and effective-address costs (spec/70_reset_and_hazards.md R216 to R219) -/

/-- The six GRP1 adds, which cost alike (R218). -/
theorem forall_mem_addRmImm_forms {p : (Width → RmOp → Imm → Instr) → Prop} (h : p .addRmImm) (h1 : p .addRmImmR1)
    (h2 : p .addRmImmR2) (h3 : p .addRmImmR3) (h4 : p .addRmImmR4) (h6 : p .addRmImmR6) :
    ∀ form ∈ [Instr.addRmImm, .addRmImmR1, .addRmImmR2, .addRmImmR3, .addRmImmR4, .addRmImmR6], p form := by
  simp only [List.forall_mem_cons]
  exact ⟨h, h1, h2, h3, h4, h6, List.forall_mem_nil _⟩

/-- Without a memory operand there is no effective-address cost (R219). -/
theorem eaCost_of_no_address (c : Config) {i : Instr} (h : ∀ m, ¬ HasAddress i m) : eaCost c i = 0 := by
  have hnone := memoryOperand_none h
  cases i with
  | movAccMem w a => rfl
  | movMemAcc w a => rfl
  | _ => simp only [eaCost, hnone, Option.map_none, Option.getD_none]

/-- Settles O54: each cost is an entry of the default tables. -/
theorem defaultCosts : Obligations.DefaultCosts := by
  unfold Obligations.DefaultCosts
  refine ⟨fun w d r i => ⟨rfl, rfl, rfl, rfl, rfl, rfl, rfl, ?_⟩,
    fun w m r i a => ⟨rfl, rfl, rfl, rfl, rfl, rfl, rfl, ?_, rfl, rfl, rfl, rfl, rfl, rfl, rfl, ?_⟩,
    fun i h => eaCost_of_no_address _ h, rfl, fun d => rfl, fun d => rfl, fun a => rfl⟩
  all_goals exact forall_mem_addRmImm_forms rfl rfl rfl rfl rfl rfl

/-! ### The misalignment penalty (spec/70_reset_and_hazards.md R221) -/

theorem wideDisp_iff (m : Ea) : wideDisp m = true ↔ (RmOp.mem m).dispLength = 2 := by
  cases m <;> simp [wideDisp, RmOp.dispLength]

/-- Two transfers are an add's with its memory operand as destination (R221). -/
theorem transfers_eq {i : Instr} {m : Ea} (h : HasAddress i m) :
    transfers i = if (i.record 0).op = .arith .add ∧ (i.record 0).dst = .ea m then 2 else 1 := by
  unfold transfers
  split
  case h_1 m' hop hdst =>
    obtain rfl := h.unique (.inl hdst)
    rw [if_pos ⟨hop, hdst⟩]
  case h_2 hnot =>
    rw [if_neg fun ⟨hop, hdst⟩ => hnot m hop hdst]

/-- The penalty of an instruction with a memory operand (R221). -/
theorem penaltyCost_of_address {s : State} {i : Instr} {m : Ea} (h : HasAddress i m) :
    penaltyCost s i =
      if (s.eaValue m).toNat % 2 = 1 ∧ penaltyKeyed s.cfg i m = true then 4 * transfers i else 0 := by
  rw [penaltyCost, (hasAddress_iff i m).mp h]
  simp only [Bool.and_eq_true, getLsbD_zero_iff_odd, and_comm, Config.penalty]

/-- Settles O56: the key is the displacement's size or the operand's width, and there are one or two transfers. -/
theorem misalignmentPenalty : Obligations.MisalignmentPenalty := by
  unfold Obligations.MisalignmentPenalty
  refine ⟨fun s i m h => ?_, fun s i h => ?_⟩
  · rw [penaltyCost_of_address h, transfers_eq h]
    refine ⟨fun hkey => ?_, fun hkey => ?_⟩
    · simp only [penaltyKeyed, hkey, wideDisp_iff]
    · simp only [penaltyKeyed, hkey, beq_iff_eq]
  · rw [penaltyCost, memoryOperand_none h]

/-! ### The decoded record (spec/30_encoding.md R60) -/

/-- Settles O57: each form's record is its equation. -/
theorem recordFields : Obligations.RecordFields := by
  unfold Obligations.RecordFields
  simp only [List.forall_mem_cons]
  refine ⟨fun r => rfl, fun m => rfl, ?_, ?_, ?_, fun w r v n => rfl, fun w a n => rfl, fun w a n => rfl, ?_,
    fun op v n => JumpOp.instr_record op v n⟩
  · exact ⟨fun _ _ _ _ => rfl, fun _ _ _ _ => rfl, fun _ _ _ _ => rfl, fun _ _ _ _ => rfl, List.forall_mem_nil _⟩
  · exact ⟨fun _ _ _ _ => rfl, fun _ _ _ _ => rfl, fun _ _ _ _ => rfl, fun _ _ _ _ => rfl, List.forall_mem_nil _⟩
  · exact ⟨fun _ _ _ _ => rfl, fun _ _ _ _ => rfl, fun _ _ _ _ => rfl, fun _ _ _ _ => rfl, fun _ _ _ _ => rfl,
      fun _ _ _ _ => rfl, fun _ _ _ _ => rfl, fun _ _ _ _ => rfl, fun _ _ _ _ => rfl, List.forall_mem_nil _⟩
  · exact ⟨fun _ _ _ => rfl, fun _ _ _ => rfl, fun _ _ _ => rfl, List.forall_mem_nil _⟩

end Sys2Proof.Machine
end
